-- ==== Sys2Proof/Word.lean ====
section
/-! DEFINITION. The byte, the only unit of data of the block (00_scope.md R6). -/

namespace Sys2Proof

/-- A byte: 8 bits, compared as an unsigned number through `BitVec.toNat` (R6, 40_framer.md R81). -/
abbrev Byte := BitVec 8

end Sys2Proof
end

