-- ==== Sys2Proof/Config.lean ====
section
/-! DEFINITION. The parameters of 00_scope.md R4. They are data, held in the State, so that every statement speaks of
every configuration. One value is free: what the size register yields before anything has been written to it. -/

namespace Sys2Proof

/-- One value for every parameter of R4. -/
structure Config where
  /-- `DEVICE_ADDRESS`: this device's own address. -/
  deviceAddress : Byte
  /-- `MIN_DRIVE`: lower end of the drive range (closed). -/
  minDrive : Byte
  /-- `MAX_DRIVE`: upper end of the drive range (closed); may lie below `minDrive` (R5, D8). -/
  maxDrive : Byte
  /-- `PING_OPCODE`: the one command the block interprets. -/
  pingOpcode : Byte
  /-- `PONG_OPCODE`: the command of the one frame the block emits. -/
  pongOpcode : Byte
  /-- `MAX_BODY`: the largest body the scratch buffer holds. -/
  maxBody : Nat
  /-- `RX_CAP`: how many bytes the byte source can hold, `none` for unbounded (20_memory.md R30). -/
  rxCap : Option Nat
deriving DecidableEq, Repr

/-- The configuration of the reset state: the stated opcodes and body size of R4, the device address and drive range of
the source's own example (95_test_vectors.md, CFG_A). DESIGN CHOICE, log 4: no default is stated; `rxCap` is the longest
frame's length. -/
def Config.default : Config where
  deviceAddress := 0x01#8
  minDrive := 1#8
  maxDrive := 8#8
  pingOpcode := 0x80#8
  pongOpcode := 0x81#8
  maxBody := 255
  rxCap := some 259

/-- The free value of log 25: what `DBS` yields at AwaitBody when nothing has ever been written to it, a state no run
reaches (10_state.md R12, R23; 93_implementation_defined.md U2, 'prove nothing from it'). It has no body, so nothing can be
proved of it. -/
opaque Config.freeSize : Byte

end Sys2Proof
end

