-- ==== Sys2Proof/Machine/Flags.lean ====
section
/-! DEFINITION. The block has no flags (10_state.md R21). What it has are the tests of 40_framer.md R81, each computed and
used at once: this file holds all of them, and the constants of the wire format they compare with. -/

namespace Sys2Proof.Machine

/-- `START_MARKER` (00_scope.md R4, 30_encoding.md R46). UNVERIFIED literal, log 18. -/
def startMarker : Byte := 0x4D#8

/-- `BROADCAST` (R4): the system address. -/
def broadcast : Byte := 0x00#8

/-- `ALL_DRIVES` (R4): the sub-address that is always valid. -/
def allDrives : Byte := 0x00#8

/-- The largest body the buffer takes: a `MAX_BODY` above 255 behaves as 255 (R5, D6; log 13). -/
def bodyCap (c : Config) : Nat := min c.maxBody 255

/-- The address test of 40_framer.md R68 (30_encoding.md R47). -/
def acceptsAddress (c : Config) (b : Byte) : Bool :=
  b == broadcast || b == c.deviceAddress

/-- The sub-address test of R69 (R48): the range is closed at both ends, the comparison unsigned, and the address is not
looked at (90_conflicts.md C2). -/
def validSub (c : Config) (b : Byte) : Bool :=
  b == allDrives || (decide (c.minDrive.toNat ≤ b.toNat) && decide (b.toNat ≤ c.maxDrive.toNat))

/-- The oversize guard of R72; the comparison is strict. -/
def oversize (c : Config) (n : Byte) : Bool :=
  decide (bodyCap c < n.toNat)

/-- The Ping test of 41_dispatch.md R85, R87: both conditions. -/
def isPing (c : Config) (addr cmd : Byte) : Bool :=
  addr == broadcast && cmd == c.pingOpcode

end Sys2Proof.Machine
end

