-- ==== Sys2Proof/Syntax.lean ====
section
/-! DEFINITION. The instructions: one constructor for each row of spec/opcode_table.json (30_encoding.md R54, R55, R56).
The fields are the row's letters, in wire order. In the three rows that carry a body the size byte `n` is not a field of
its own: it is the number of body bytes, one for the command and one for each payload byte (R49, R50). -/

namespace Sys2Proof

inductive Instr where
  /-- `SYS_PING` (41_dispatch.md R87): broadcast frame whose command is the ping opcode. -/
  | sysPing (sub cmd : Byte) (payload : List Byte)
  /-- `SYS_MSG` (R88): any other broadcast frame with a body. -/
  | sysMsg (sub cmd : Byte) (payload : List Byte)
  /-- `DEV_MSG` (R89): a frame with a body addressed to this device. -/
  | devMsg (addr sub cmd : Byte) (payload : List Byte)
  /-- `SYS_EMPTY` (R86): broadcast frame of size 0. -/
  | sysEmpty (sub : Byte)
  /-- `DEV_EMPTY` (R86): frame of size 0 addressed to this device. -/
  | devEmpty (addr sub : Byte)
  /-- `REJ_NOISE` (40_framer.md R67): a byte that is no start marker, met between frames. -/
  | rejNoise (x : Byte)
  /-- `REJ_ADDR` (R68): marker, then an address that is neither broadcast nor this device's. -/
  | rejAddr (x : Byte)
  /-- `REJ_SUB` (R69): marker, accepted address, then an invalid sub-address. -/
  | rejSub (addr x : Byte)
  /-- `REJ_SIZE` (R72): a valid header whose size exceeds `MAX_BODY`. -/
  | rejSize (addr sub n : Byte)
  /-- `PONG` (30_encoding.md R56): the transmitted reply frame; never an instruction of the receive side (log 8). -/
  | pong (opcode addr lo hi : Byte)
deriving DecidableEq, Repr

end Sys2Proof
end

