-- ==== Sys2Proof/Machine/Position.lean ====
section
/-! DEFINITION. The parser position `POS`, the block's sequencer (10_state.md R11, R12), and at which position each
instruction completes. -/

namespace Sys2Proof.Machine

/-- The five values of `POS`, in the source's order (R11). -/
inductive Pos where
  | awaitStart | awaitAddress | awaitSubAddress | awaitSize | awaitBody
deriving DecidableEq, Repr

/-- The 3-bit encoding R11 offers (D4); unobservable. -/
def Pos.code : Pos → BitVec 3
  | .awaitStart => 0#3
  | .awaitAddress => 1#3
  | .awaitSubAddress => 2#3
  | .awaitSize => 3#3
  | .awaitBody => 4#3

/-- The position a 3-bit value encodes; 5, 6 and 7 encode none (R11, 93_implementation_defined.md U11). -/
def Pos.ofCode (v : BitVec 3) : Option Pos :=
  [Pos.awaitStart, .awaitAddress, .awaitSubAddress, .awaitSize, .awaitBody].find? (fun p => p.code == v)

/-- The position whose micro-step completes or rejects the instruction (30_encoding.md R55, 40_framer.md R67 to R72).
`PONG` is not received; it is written while the parser is at AwaitBody (41_dispatch.md R87, R92). -/
def completesAt : Instr → Pos
  | .rejNoise _ => .awaitStart
  | .rejAddr _ => .awaitAddress
  | .rejSub _ _ => .awaitSubAddress
  | .sysPing _ _ _ | .sysMsg _ _ _ | .devMsg _ _ _ _ | .sysEmpty _ | .devEmpty _ _ | .rejSize _ _ _ | .pong _ _ _ _ =>
    .awaitBody

end Sys2Proof.Machine
end

