-- ==== Sys2Proof/Machine/Operands.lean ====
section
/-! DEFINITION. The operand forms: how a frame is laid out (30_encoding.md R45, R58), how a complete body is split into
the operands of its class (R50, R59, 41_dispatch.md R85), where a byte goes in the scratch buffer (10_state.md R15), and
the bytes of the Pong frame (R56). -/

namespace Sys2Proof.Machine

/-- `FRAME addr sub : body` (R58): header of four bytes, then the body; the size byte counts the body (R49). -/
def frame (addr sub : Byte) (body : List Byte) : List Byte :=
  startMarker :: addr :: sub :: BitVec.ofNat 8 body.length :: body

/-- `PING` of R58 under configuration `c`: a broadcast frame whose one body byte is the ping opcode. -/
def pingFrame (c : Config) : List Byte := frame broadcast allDrives [c.pingOpcode]

/-- The eight bytes of a Pong frame, in wire order (R56): `PONG a lo hi` of R58 with its opcode. -/
def pongBytes (opcode addr lo hi : Byte) : List Byte :=
  [startMarker, 0x00#8, 0x00#8, 0x04#8, opcode, addr, lo, hi]

/-- The one Pong frame of a configuration (R56). -/
def pongFrame (c : Config) : List Byte :=
  pongBytes c.pongOpcode c.deviceAddress c.minDrive c.maxDrive

/-- Slot of the accepted address (10_state.md R15, D3). -/
def addressSlot : Nat := 1

/-- Slot of the accepted sub-address (R15, D3). -/
def subAddressSlot : Nat := 2

/-- First slot of the body: `BODY[i]` lives at slot `4 + i`, a natural number that never wraps (R15, 40_framer.md R81). -/
def bodySlot : Nat := 4

/-- How many slots the scratch buffer has: `4 + MAX_BODY` (R14). -/
def slotCount (c : Config) : Nat := bodySlot + bodyCap c

/-- The class of a frame whose header passed the checks and whose body is complete, by the tests of 41_dispatch.md R85
in their order (R90): no body first, then broadcast and ping, then broadcast, then what is left. -/
def classify (c : Config) (addr sub : Byte) (body : List Byte) : Instr :=
  match body with
  | [] => if addr == broadcast then .sysEmpty sub else .devEmpty addr sub
  | cmd :: payload =>
    if isPing c addr cmd then .sysPing sub cmd payload
    else if addr == broadcast then .sysMsg sub cmd payload
    else .devMsg addr sub cmd payload

end Sys2Proof.Machine
end

