-- ==== Sys2Proof/WellFormed.lean ====
section
/-! DEFINITION. Which configurations are legal (00_scope.md R5, 92_eei_decisions.md D24) and which instructions the
encoding admits under a configuration (30_encoding.md R54, R55, R56). -/

namespace Sys2Proof

open Sys2Proof.Machine

/-- A legal configuration (R5, D24): the device address is not the broadcast address and `MAX_BODY` is at most 255. No
order is asked of the drive range (D8). -/
def Config.wf (c : Config) : Bool :=
  c.deviceAddress != broadcast && decide (c.maxBody ≤ 255)

/-- The body of a message fits: command and payload together are at most `MAX_BODY` bytes (R49, R50). -/
def bodyFits (c : Config) (payload : List Byte) : Bool :=
  decide (payload.length + 1 ≤ bodyCap c)

/-- An address byte that selects this device and is not the broadcast address (R54). -/
def ownAddress (c : Config) (a : Byte) : Bool :=
  a != broadcast && a == c.deviceAddress

/-- Each instruction's own condition, column by column of the tables of R54, R55 and R56. -/
def Instr.wf (c : Config) : Instr → Bool
  | .sysPing sub cmd payload => validSub c sub && cmd == c.pingOpcode && bodyFits c payload
  | .sysMsg sub cmd payload => validSub c sub && cmd != c.pingOpcode && bodyFits c payload
  | .devMsg addr sub _ payload => ownAddress c addr && validSub c sub && bodyFits c payload
  | .sysEmpty sub => validSub c sub
  | .devEmpty addr sub => ownAddress c addr && validSub c sub
  | .rejNoise x => x != startMarker
  | .rejAddr x => !acceptsAddress c x
  | .rejSub addr x => acceptsAddress c addr && !validSub c x
  | .rejSize addr sub n => acceptsAddress c addr && validSub c sub && oversize c n
  | .pong opcode addr lo hi =>
    opcode == c.pongOpcode && addr == c.deviceAddress && lo == c.minDrive && hi == c.maxDrive

/-- Is the instruction one of the receive side? Every row but `PONG` (spec/opcode_table.json, "direction"). -/
def Instr.received : Instr → Bool
  | .pong _ _ _ _ => false
  | .sysPing _ _ _ | .sysMsg _ _ _ | .devMsg _ _ _ _ | .sysEmpty _ | .devEmpty _ _ | .rejNoise _ | .rejAddr _
  | .rejSub _ _ | .rejSize _ _ _ => true

/-- The command and payload of an instruction that carries them, none for an empty frame or a rejected input. -/
def Instr.body : Instr → List Byte
  | .sysPing _ cmd payload | .sysMsg _ cmd payload | .devMsg _ _ cmd payload => cmd :: payload
  | .pong opcode addr lo hi => [opcode, addr, lo, hi]
  | .sysEmpty _ | .devEmpty _ _ | .rejNoise _ | .rejAddr _ | .rejSub _ _ | .rejSize _ _ _ => []

end Sys2Proof
end

