-- ==== Sys2Proof/Decode.lean ====
section
/-! DEFINITION. The decoder, total on any byte string, and after it the encoder (30_encoding.md R45 to R56, 40_framer.md
R67 to R72). Every byte string has a reaction, a rejected input being an instruction of its own (R55); what the decoder
answers by name is that the string ends before its instruction does. -/

namespace Sys2Proof

open Sys2Proof.Machine

/-- Why no instruction is read. -/
inductive DecodeError where
  /-- The string ends where the field awaited at this position should stand; at AwaitBody, inside the body. -/
  | truncated (at_ : Pos)
deriving DecidableEq, Repr

/-- At AwaitBody (R71, R72): the guard before the availability test, then the whole body. -/
def decodeBody (c : Config) (addr sub n : Byte) (bs : List Byte) : Except DecodeError (Instr × List Byte) :=
  if oversize c n then .ok (.rejSize addr sub n, bs)
  else if bs.length < n.toNat then .error (.truncated .awaitBody)
  else .ok (classify c addr sub (bs.take n.toNat), bs.drop n.toNat)

/-- At AwaitSize (R70): any size byte. -/
def decodeSize (c : Config) (addr sub : Byte) : List Byte → Except DecodeError (Instr × List Byte)
  | [] => .error (.truncated .awaitSize)
  | n :: bs => decodeBody c addr sub n bs

/-- At AwaitSubAddress (R69). -/
def decodeSubAddress (c : Config) (addr : Byte) : List Byte → Except DecodeError (Instr × List Byte)
  | [] => .error (.truncated .awaitSubAddress)
  | s :: bs => if validSub c s then decodeSize c addr s bs else .ok (.rejSub addr s, bs)

/-- At AwaitAddress (R68). -/
def decodeAddress (c : Config) : List Byte → Except DecodeError (Instr × List Byte)
  | [] => .error (.truncated .awaitAddress)
  | a :: bs => if acceptsAddress c a then decodeSubAddress c a bs else .ok (.rejAddr a, bs)

/-- The decoder, from AwaitStart (R67): the first instruction of a byte string and the bytes after it. -/
def decode (c : Config) : List Byte → Except DecodeError (Instr × List Byte)
  | [] => .error (.truncated .awaitStart)
  | b :: bs => if b == startMarker then decodeAddress c bs else .ok (.rejNoise b, bs)

/-- A reader of the transmit side: the Pong frame at the head of the bytes written to the sink (R56). -/
def decodeTx : List Byte → Option (Instr × List Byte)
  | m :: a :: s :: n :: opcode :: addr :: lo :: hi :: rest =>
    if m == startMarker && a == 0x00#8 && s == 0x00#8 && n == 0x04#8 then some (.pong opcode addr lo hi, rest) else none
  | _ => none

/-- The bytes of an instruction, in wire order (R45, R54, R55, R56). -/
def encode : Instr → List Byte
  | .sysPing sub cmd payload => frame broadcast sub (cmd :: payload)
  | .sysMsg sub cmd payload => frame broadcast sub (cmd :: payload)
  | .devMsg addr sub cmd payload => frame addr sub (cmd :: payload)
  | .sysEmpty sub => frame broadcast sub []
  | .devEmpty addr sub => frame addr sub []
  | .rejNoise x => [x]
  | .rejAddr x => [startMarker, x]
  | .rejSub addr x => [startMarker, addr, x]
  | .rejSize addr sub n => [startMarker, addr, sub, n]
  | .pong opcode addr lo hi => pongBytes opcode addr lo hi

/-- The `k` bytes of a number, most significant first: the table's rows are written most significant bit first, byte 0
first, so the first byte on the wire is the top byte of the row (92_eei_decisions.md D16, spec/98_reader.md; log 3). -/
def bytesOfNumber : Nat → Nat → List Byte
  | 0, _ => []
  | k + 1, w => BitVec.ofNat 8 (w / 256 ^ k) :: bytesOfNumber k w

/-- The bytes an opcode-table row stands for: the row's own bytes, then zeros up to the longest frame, 259 bytes (R51). -/
def tableBytes (nbits w : Nat) : List Byte :=
  bytesOfNumber (nbits / 8) w ++ List.replicate (259 - nbits / 8) 0x00#8

/-- What the decoder reads from a row's bits, under the configuration of the reset state. -/
def decodeTableWord (nbits w : Nat) : Option Instr :=
  match decode Config.default (tableBytes nbits w) with
  | .ok (i, _) => some i
  | .error _ => none

end Sys2Proof
end

