-- ==== Sys2Proof/Machine/Memory.lean ====
section
/-! DEFINITION. The scratch buffer's contents: a list of (slot, byte) pairs, slots strictly rising. A slot that is not
listed holds no value (10_state.md R16, R23). -/

namespace Sys2Proof.Machine

abbrev Memory := List Host.Cell

/-- What an unlisted slot reads as: no value, never zero (R16, 93_implementation_defined.md U1). -/
def unlisted : Option Byte := none

/-- One byte of memory: the value a slot holds, if it holds one. -/
def Memory.slot : Memory → Nat → Option Byte
  | [], _ => unlisted
  | (k, b) :: m, a => if k = a then some b else Memory.slot m a

/-- `SB[a] <- b`. -/
def Memory.put : Memory → Nat → Byte → Memory
  | [], a, b => [(a, b)]
  | (k, v) :: m, a, b =>
    if a < k then (a, b) :: (k, v) :: m
    else if a = k then (a, b) :: m
    else (k, v) :: Memory.put m a b

/-- Stores a byte sequence at ascending slots (40_framer.md R71). -/
def Memory.putAll : Memory → Nat → List Byte → Memory
  | m, _, [] => m
  | m, a, b :: bs => Memory.putAll (Memory.put m a b) (a + 1) bs

/-- The canonical form: slots strictly rising. (No entry can equal what an unlisted slot reads as, which is no value.) -/
def Memory.wf : Memory → Bool
  | [] => true
  | (k, _) :: m => m.all (fun cell => decide (k < cell.1)) && Memory.wf m

end Sys2Proof.Machine
end

