-- ==== Sys2Proof/Machine/State.lean ====
section
/-! DEFINITION. The state: the block's own three registers (10_state.md R10), its configuration inputs (R20), the state of
the surroundings a model carries (R22), and who moves next (20_memory.md R29, 92_eei_decisions.md open parameters). -/

namespace Sys2Proof.Machine

/-- An element of `EVT`, the ordered history of output events (R22). -/
inductive Event where
  /-- `Tx(bytes)`: one `TxWrite` (20_memory.md R31). -/
  | tx (bytes : List Byte)
  /-- `Sys(cmd, payload)`: one call of `HandleSystemMessage` (R33). -/
  | sys (cmd : Byte) (payload : List Byte)
  /-- `Dev(sub, cmd, payload)`: one call of `HandleDeviceMessage` (R34). -/
  | dev (sub cmd : Byte) (payload : List Byte)
deriving DecidableEq, Repr

/-- Who moves at a step: the interleaving of arrivals, host calls and micro-steps (R29, D13; log 11). -/
inductive Turn where
  /-- The block makes one micro-step of the running `drain` call, if there is one. -/
  | block
  /-- The sender appends one byte (20_memory.md R29). -/
  | sender (b : Byte)
  /-- The host, or a handler, calls `drain` (40_framer.md R65, 70_reset_and_hazards.md R131). -/
  | hostDrain
  /-- The reset input is applied (R120, R121). -/
  | hostReset
  /-- The host tries to change the parameters after start-up (10_state.md R20, R132). -/
  | hostConfigure (c : Config)
deriving DecidableEq, Repr

/-- Why the model stops with a fault. The block itself never faults (60_exceptions.md R116): no constructor is raised in
a state that meets `Inv` (Safety.lean). -/
inductive Fault where
  /-- A read of a slot that was not written for the frame in flight, or holds no value (R16, R116). Raised by `readSlot`.
  Safe: the model stops, the spec calls it unreachable. -/
  | uncommittedSlot (slot : Nat)
  /-- A read of `DBS` while `POS` is not AwaitBody (60_exceptions.md R116, its words; R13, U2). Raised by `readSize`. Safe,
  unreachable: no rule reads `DBS` there. -/
  | uncommittedSize
  /-- A store to a slot at or above `4 + MAX_BODY`, which does not exist (10_state.md R14, 20_memory.md R44). Raised by
  `storeBody`. Safe: the oversize guard makes it unreachable. -/
  | noSuchSlot (slot : Nat)
deriving DecidableEq, Repr

/-- Why the model gives no meaning. -/
inductive Refusal where
  /-- Raised by `exec` for an instruction without a meaning yet. Safe. No arm raises it. -/
  | notModelled (mnemonic : String)
  /-- The configuration is outside 00_scope.md R5 (R116, D7, D24). Raised by `stepTurn`. Safe. -/
  | illegalConfiguration
  /-- `drain` called while a `drain` call is running (70_reset_and_hazards.md R131, D15). Raised by `callDrain`. Safe. -/
  | reentrantDrain
  /-- A parameter changed after start-up (10_state.md R20, D20). Raised by `takeTurn`. Safe. -/
  | reconfiguration
deriving DecidableEq, Repr

structure State where
  /-- The configuration inputs (R20), constant. -/
  cfg : Config
  /-- `POS` (R11). -/
  pos : Pos
  /-- `DBS` (R13); `none` is the spec's 'holds no value' (R23; log 7). -/
  dbs : Option Byte
  /-- `SB[]` (R14 to R16). -/
  sb : Memory
  /-- `RXQ` (R22): the bytes the source holds, oldest first. -/
  rxq : List Byte
  /-- `TXQ` (R22): every byte ever written to the sink, in order. -/
  txq : List Byte
  /-- `EVT` (R22): every output event, in order. -/
  evt : List Event
  /-- A `drain` call is running (40_framer.md R65, R131). -/
  draining : Bool
  /-- The oracle `read_fails` (20_memory.md R28, D10): for each coming `RxRead`, whether it fails; past the end none
  fails. The model's own field; log 6. -/
  readScript : List Bool
  /-- The schedule: who moves at each coming step; past its end the block. The model's own field; log 11. -/
  turns : List Turn
deriving DecidableEq, Repr

/-- The state at power-up under a configuration, with the bytes the source holds then (10_state.md R23): `POS` at
AwaitStart, `DBS` and every slot without a value, no output yet, no call running. -/
def State.powerUp (c : Config) (held : List Byte) : State where
  cfg := c
  pos := .awaitStart
  dbs := none
  sb := []
  rxq := held
  txq := []
  evt := []
  draining := false
  readScript := []
  turns := []

/-- The machine right after reset (R23, 70_reset_and_hazards.md R120): `powerUp` under the configuration of log 4 with an
empty byte source (log 21). -/
def State.reset : State := State.powerUp Config.default []

end Sys2Proof.Machine
end

