-- ==== Sys2Proof/Machine/Ops.lean ====
section
/-! DEFINITION. The named operations over the state: the primitives of 00_scope.md R7, the committed reads of the Parser
State, `reject` (what this block has for taking an exception) and the end of a micro-step. -/

namespace Sys2Proof.Machine

/-- What a micro-step answers. -/
abbrev Result := Host.Outcome State Fault Refusal

/-! ### The byte source, the sink and the consumer (20_memory.md R26 to R34) -/

/-- `RxAvail()`: the number of bytes the source holds (R26). -/
def rxAvail (s : State) : Nat := s.rxq.length

/-- `RxRead(n)`: the oracle's next answer decides whether the read fails; a failed read removes nothing (R27, R28, D10;
log 6). The n oldest bytes and the state after; no bytes where it failed. -/
def rxRead (n : Nat) (s : State) : Option (List Byte) × State :=
  if s.readScript.headD false then (none, { s with readScript := s.readScript.tail })
  else (some (s.rxq.take n), { s with readScript := s.readScript.tail, rxq := s.rxq.drop n })

/-- `TxWrite(bytes)`: one atomic append to the sink, recorded in `EVT`; the sink always accepts (R31, D11; log 9). -/
def txWrite (bytes : List Byte) (s : State) : State :=
  { s with txq := s.txq ++ bytes, evt := s.evt ++ [.tx bytes] }

/-- `SysMsg(cmd, payload)` (R33): an instantaneous call that returns nothing (D15; log 10). -/
def sysMessage (cmd : Byte) (payload : List Byte) (s : State) : State :=
  { s with evt := s.evt ++ [.sys cmd payload] }

/-- `DevMsg(sub, cmd, payload)` (R34). -/
def devMessage (sub cmd : Byte) (payload : List Byte) (s : State) : State :=
  { s with evt := s.evt ++ [.dev sub cmd payload] }

/-! ### The Parser State (10_state.md R11 to R16) -/

/-- The content of `DBS` (R13). Nothing written since power-up is a free value, which only a state no run reaches can show
at AwaitBody (R23; log 25). -/
def declaredSize (s : State) : Byte := s.dbs.getD Config.freeSize

/-- Is a slot written for the frame in flight? The header slots by position (R15, R18); the body slots `4` to `3 + DBS` only
inside the micro-step that has just read the body (`bodyIn`; R16, 41_dispatch.md R85); slots 0 and 3 never (U12). What a
longer earlier frame left in slots from `4 + DBS` on is not committed (U1). -/
def committed (bodyIn : Bool) (s : State) (slot : Nat) : Bool :=
  match s.pos with
  | .awaitStart | .awaitAddress => false
  | .awaitSubAddress => slot == addressSlot
  | .awaitSize => slot == addressSlot || slot == subAddressSlot
  | .awaitBody =>
    slot == addressSlot || slot == subAddressSlot ||
      (bodyIn && decide (bodySlot ≤ slot) && decide (slot < bodySlot + (declaredSize s).toNat))

/-- `SB[slot]` read as committed data (R16, R116). -/
def readSlot (bodyIn : Bool) (slot : Nat) (s : State) : Except Fault Byte :=
  if committed bodyIn s slot then
    match s.sb.slot slot with
    | some b => .ok b
    | none => .error (.uncommittedSlot slot)
  else .error (.uncommittedSlot slot)

/-- `DBS` read as committed data (R13, R116): away from AwaitBody the read is the model's fault. -/
def readSize (s : State) : Except Fault Byte :=
  if s.pos = .awaitBody then .ok (declaredSize s) else .error .uncommittedSize

/-- Stores a body at slots 4, 5, … in arrival order (40_framer.md R71); a body that reaches past the last slot would
overflow the buffer (R44, R72). -/
def storeBody (body : List Byte) (s : State) : Except Fault State :=
  if body.length ≤ bodyCap s.cfg then .ok { s with sb := s.sb.putAll bodySlot body }
  else .error (.noSuchSlot (slotCount s.cfg))

/-! ### The end of a micro-step -/

/-- `reject` (00_scope.md R7, 60_exceptions.md R110): all this block has for taking an exception. It saves nothing, clears
nothing, skips nothing and calls nobody. There is no return from it (R111): the next micro-step scans from AwaitStart. -/
def reject (s : State) : State := { s with pos := .awaitStart }

/-- After dispatch: `POS <- AwaitStart`, nothing is cleared (40_framer.md R71, 41_dispatch.md R92). -/
def frameDone (s : State) : State := { s with pos := .awaitStart }

/-- The micro-step makes no progress, so the running `drain` call returns (40_framer.md R65, R66); nothing of the block,
the streams or the history changes. -/
def noProgress (s : State) : State := { s with draining := false }

/-- The availability test, then the read, that open every micro-step that needs `n` bytes (R67 to R71, R73, D2): too few
bytes or a failed read end the `drain` call, otherwise `next` goes on with the bytes. -/
def readThen (n : Nat) (s : State) (next : List Byte → State → Result) : Result :=
  if rxAvail s < n then .next (noProgress s)
  else
    match rxRead n s with
    | (none, t) => .next (noProgress t)
    | (some bs, t) => next bs t

/-- The body into the buffer, one dispatch while `POS` is still AwaitBody, then back to AwaitStart (R71). -/
def finishFrame (dispatch : State → State) (body : List Byte) (s : State) : Result :=
  match storeBody body s with
  | .error f => .fault f
  | .ok u => .next (frameDone (dispatch u))

/-- The micro-step that completes a frame (R71): the whole body in one read, then `finishFrame`. -/
def completeFrame (body : List Byte) (dispatch : State → State) (s : State) : Result :=
  readThen body.length s (finishFrame dispatch)

end Sys2Proof.Machine
end

