-- ==== Sys2Proof/Machine/Device.lean ====
section
/-! DEFINITION. The meanings of the frames addressed to this device (41_dispatch.md R86, R89). -/

namespace Sys2Proof.Machine

/-- `DEV_MSG` (R89): sub-address, command and payload go to the device handler, whatever the command (R97). -/
def execDevMsg (_addr sub cmd : Byte) (payload : List Byte) (s : State) : Result :=
  completeFrame (cmd :: payload) (devMessage sub cmd payload) s

/-- `DEV_EMPTY` (R86): a read of no bytes, no output. -/
def execDevEmpty (_addr _sub : Byte) (s : State) : Result :=
  completeFrame [] id s

end Sys2Proof.Machine
end

