-- ==== Sys2Proof/Machine/Rejects.lean ====
section
/-! DEFINITION. The meanings of the four kinds of rejected input (30_encoding.md R55, 60_exceptions.md R101 to R104). Each
is the micro-step that rejects: the bytes before the offending one were taken by the header micro-steps. -/

namespace Sys2Proof.Machine

/-- `REJ_NOISE` (40_framer.md R67, R101): the byte is consumed and dropped; the parser stays at AwaitStart. -/
def execRejNoise (_x : Byte) (s : State) : Result :=
  readThen 1 s fun _ t => .next (reject t)

/-- `REJ_ADDR` (R68, R102): the byte is consumed, no slot is written. -/
def execRejAddr (_x : Byte) (s : State) : Result :=
  readThen 1 s fun _ t => .next (reject t)

/-- `REJ_SUB` (R69, R103): the byte is consumed, `SB[2]` is not written, `SB[1]` keeps the address. -/
def execRejSub (_addr _x : Byte) (s : State) : Result :=
  readThen 1 s fun _ t => .next (reject t)

/-- `REJ_SIZE` (R72, R104): no byte is consumed or skipped. -/
def execRejSize (_addr _sub _n : Byte) (s : State) : Result :=
  .next (reject s)

end Sys2Proof.Machine
end

