-- ==== Sys2Proof/Machine/System.lean ====
section
/-! DEFINITION. The meanings of the broadcast frames (41_dispatch.md R86, R87, R88). -/

namespace Sys2Proof.Machine

/-- `SYS_PING` (R87): the body is taken, the configuration's Pong frame is written, the consumer is not called. -/
def execSysPing (_sub cmd : Byte) (payload : List Byte) (s : State) : Result :=
  completeFrame (cmd :: payload) (txWrite (pongFrame s.cfg)) s

/-- `SYS_MSG` (R88): command and payload go to the system handler; the sub-address does not. -/
def execSysMsg (_sub cmd : Byte) (payload : List Byte) (s : State) : Result :=
  completeFrame (cmd :: payload) (sysMessage cmd payload) s

/-- `SYS_EMPTY` (R86): a read of no bytes, no output. -/
def execSysEmpty (_sub : Byte) (s : State) : Result :=
  completeFrame [] id s

end Sys2Proof.Machine
end

