-- ==== Sys2Proof/Machine/Transmit.lean ====
section
/-! DEFINITION. The meaning of the transmitted frame. -/

namespace Sys2Proof.Machine

/-- `PONG` (30_encoding.md R56, 20_memory.md R31): the frame is written whole by one `TxWrite`. The receive side never
runs it: `SYS_PING` writes the same frame inside its own micro-step, and a received Pong is a `SYS_MSG` (R57; log 8). -/
def execPong (opcode addr lo hi : Byte) (s : State) : Result :=
  .next (txWrite (pongBytes opcode addr lo hi) s)

end Sys2Proof.Machine
end

