-- ==== Sys2Proof/Machine/Dispatch.lean ====
section
/-! DEFINITION. One arm for each constructor of `Instr`. -/

namespace Sys2Proof.Machine

open Sys2Proof

def exec (i : Instr) (s : State) : Host.Outcome State Fault Refusal :=
  match i with
  | .sysPing sub cmd payload => Sys2Proof.Machine.execSysPing sub cmd payload s
  | .sysMsg sub cmd payload => Sys2Proof.Machine.execSysMsg sub cmd payload s
  | .devMsg addr sub cmd payload => Sys2Proof.Machine.execDevMsg addr sub cmd payload s
  | .sysEmpty sub => Sys2Proof.Machine.execSysEmpty sub s
  | .devEmpty addr sub => Sys2Proof.Machine.execDevEmpty addr sub s
  | .rejNoise x => Sys2Proof.Machine.execRejNoise x s
  | .rejAddr x => Sys2Proof.Machine.execRejAddr x s
  | .rejSub addr x => Sys2Proof.Machine.execRejSub addr x s
  | .rejSize addr sub n => Sys2Proof.Machine.execRejSize addr sub n s
  | .pong opcode addr lo hi => Sys2Proof.Machine.execPong opcode addr lo hi s

end Sys2Proof.Machine
end

