-- ==== Sys2Proof/Machine/Sequencer.lean ====
section
/-! DEFINITION. The micro-step (40_framer.md R66) as fetch and execute, and the turns of the surroundings. `POS` says how
much of the instruction at the head of the stream has been taken; a micro-step either takes one more header byte, or runs
the instruction that completes here, or makes no progress. -/

namespace Sys2Proof.Machine

open Sys2Proof

/-- The instruction in flight: the header taken so far (from `SB[1]`, `SB[2]` and `DBS`) and the bytes the source holds,
decoded from the present position on. Nothing is consumed. -/
def inFlight (s : State) : Except Fault (Except DecodeError (Instr × List Byte)) :=
  match s.pos with
  | .awaitStart => .ok (decode s.cfg s.rxq)
  | .awaitAddress => .ok (decodeAddress s.cfg s.rxq)
  | .awaitSubAddress =>
    match readSlot false addressSlot s with
    | .error f => .error f
    | .ok a => .ok (decodeSubAddress s.cfg a s.rxq)
  | .awaitSize =>
    match readSlot false addressSlot s, readSlot false subAddressSlot s with
    | .error f, _ => .error f
    | _, .error f => .error f
    | .ok a, .ok b => .ok (decodeSize s.cfg a b s.rxq)
  | .awaitBody =>
    match readSlot false addressSlot s, readSlot false subAddressSlot s, readSize s with
    | .error f, _, _ => .error f
    | _, .error f, _ => .error f
    | _, _, .error f => .error f
    | .ok a, .ok b, .ok n => .ok (decodeBody s.cfg a b n s.rxq)

/-- An accepted header byte (R67 to R70): stored where its position says, and the position advances. At AwaitBody there is
no header byte left and `microStep` never asks for one. -/
def acceptField (b : Byte) (s : State) : State :=
  match s.pos with
  | .awaitStart => { s with pos := .awaitAddress }
  | .awaitAddress => { s with sb := s.sb.put addressSlot b, pos := .awaitSubAddress }
  | .awaitSubAddress => { s with sb := s.sb.put subAddressSlot b, pos := .awaitSize }
  | .awaitSize => { s with dbs := some b, pos := .awaitBody }
  | .awaitBody => s

/-- The micro-step that takes one accepted header byte. -/
def takeHeader (s : State) : Result :=
  readThen 1 s fun bs t => .next (bs.foldl (fun u b => acceptField b u) t)

/-- One micro-step (R66). -/
def microStep (s : State) : Result :=
  match inFlight s with
  | .error f => .fault f
  | .ok (.ok (i, _)) => if completesAt i = s.pos then exec i s else takeHeader s
  | .ok (.error (.truncated p)) => if p = s.pos then .next (noProgress s) else takeHeader s

/-! ### The turns -/

/-- The block's turn: one micro-step if a `drain` call is running, nothing otherwise (70_reset_and_hazards.md R122). -/
def blockTurn (s : State) : Result :=
  if s.draining then microStep s else .next s

/-- Can the byte source hold one more byte (20_memory.md R30)? -/
def hasRoom (s : State) : Bool :=
  match s.cfg.rxCap with
  | none => true
  | some k => decide (s.rxq.length < k)

/-- The sender's byte enters at the tail (R29); where the source is full it is lost (D12, R129, R136; log 5). -/
def arrive (b : Byte) (s : State) : State :=
  if hasRoom s then { s with rxq := s.rxq ++ [b] } else s

/-- The host's call of `drain` (40_framer.md R65); refused while one is running (70_reset_and_hazards.md R131). -/
def callDrain (s : State) : Result :=
  if s.draining then .refused .reentrantDrain else .next { s with draining := true }

/-- The reset input (R120, R121): `POS <- AwaitStart` and nothing else; the byte source is not flushed (log 12). -/
def applyReset (s : State) : State := { s with pos := .awaitStart }

/-- One turn of the schedule. -/
def takeTurn (t : Turn) (s : State) : Result :=
  match t with
  | .block => blockTurn s
  | .sender b => .next (arrive b s)
  | .hostDrain => callDrain s
  | .hostReset => .next (applyReset s)
  | .hostConfigure _ => .refused .reconfiguration

/-- One step: an illegal configuration is refused (60_exceptions.md R116); otherwise the next turn is taken, the block's
where the schedule is used up. -/
def stepTurn (s : State) : Result :=
  if s.cfg.wf then
    match s.turns with
    | [] => blockTurn s
    | t :: rest => takeTurn t { s with turns := rest }
  else .refused .illegalConfiguration

/-! ### Placing an instruction -/

/-- Runs header micro-steps, at most `k`, until the instruction in flight completes at the position reached. -/
def takeHeaders : Nat → State → State
  | 0, s => s
  | k + 1, s =>
    match inFlight s with
    | .ok (.ok (i, _)) =>
      if completesAt i = s.pos then s
      else
        match takeHeader s with
        | .next t => takeHeaders k t
        | .fault _ | .refused _ => s
    | .ok (.error _) | .error _ => s

/-- A state whose very next step runs the instruction at the head of `bytes`: the bytes are on the byte source, a `drain`
call is running, it is the block's turn, no read fails, and the header (at most four bytes) has been taken (log 2). -/
def placeBytes (bytes : List Byte) (s : State) : State :=
  takeHeaders 4 { s with pos := .awaitStart, rxq := bytes, draining := true, readScript := [], turns := [] }

end Sys2Proof.Machine
end

