-- ==== Sys2Proof/Machine/Step.lean ====
section
/-! DEFINITION. One step of the machine. -/

namespace Sys2Proof.Machine

/-- One step: one turn of the schedule, which for the block is one micro-step (40_framer.md R66; logs 1, 11). -/
def step (s : State) : Host.Outcome State Fault Refusal := stepTurn s

/-- The state in which the next step runs the instruction of an opcode-table row (log 2, log 3). -/
def State.withFetchWord (s : State) (nbits w : Nat) : State :=
  placeBytes (Sys2Proof.tableBytes nbits w) s

end Sys2Proof.Machine
end

