-- ==== Sys2Proof/Machine/Ports.lean ====
section
/-! DEFINITION. The port-level view of 70_reset_and_hazards.md R140. It adds no behaviour: the inputs are fields and turns of
the State (`cfg_*` are `State.cfg`, `rst` is `Turn.hostReset`, `drain_start` is `Turn.hostDrain`, `rx_avail` is `rxAvail`),
and the ports below are read off the state and the output events (log 24). -/

namespace Sys2Proof.Machine

/-- The output transaction of one event (R140): at most one of the three is asserted. -/
inductive PortTransaction where
  /-- `tx_write` with `tx_data`, 64 bits, byte 0 first. -/
  | txWrite (data : BitVec 64)
  /-- `sys_call` with `msg_cmd`, `msg_len`, `msg_payload`. -/
  | sysCall (cmd len : Byte) (payload : List Byte)
  /-- `dev_call` with `msg_sub`, `msg_cmd`, `msg_len`, `msg_payload`. -/
  | devCall (sub cmd len : Byte) (payload : List Byte)
deriving DecidableEq, Repr

/-- Bytes as one number, the first byte most significant. -/
def numberOfBytes (bytes : List Byte) : Nat :=
  bytes.foldl (fun acc b => acc * 256 + b.toNat) 0

/-- The port transaction an output event is. -/
def Event.transaction : Event → PortTransaction
  | .tx bytes => .txWrite (BitVec.ofNat 64 (numberOfBytes bytes))
  | .sys cmd payload => .sysCall cmd (BitVec.ofNat 8 payload.length) payload
  | .dev sub cmd payload => .devCall sub cmd (BitVec.ofNat 8 payload.length) payload

/-- `drain_done`: no call is running. -/
def drainDone (s : State) : Bool := !s.draining

/-- The block makes a micro-step now: a call is running, under a legal configuration, and it is the block's turn. -/
def blockIsNext (s : State) : Bool :=
  s.cfg.wf && s.draining && decide (s.turns.head?.getD .block = .block)

/-- How many bytes the state rule of the present position reads: one for a header byte, the declared size for a body, and no
read at all where the oversize guard applies (20_memory.md R27, 40_framer.md R67 to R72). -/
def bytesWanted (s : State) : Option Nat :=
  match s.pos with
  | .awaitBody => if oversize s.cfg (declaredSize s) then none else some (declaredSize s).toNat
  | .awaitStart | .awaitAddress | .awaitSubAddress | .awaitSize => some 1

/-- How many bytes the `RxRead` of the coming micro-step asks for; none where it makes no `RxRead`, which it makes only after
that many bytes are confirmed available (R27). -/
def rxRequest (s : State) : Option Nat :=
  (bytesWanted s).filter fun n => blockIsNext s && decide (n ≤ rxAvail s)

/-- `rx_pop(n)`: the request, 9 bits (a size is at most 255); none where nothing is requested. -/
def rxPop (s : State) : Option (BitVec 9) := (rxRequest s).map (BitVec.ofNat 9)

/-- `rx_fail`: the request of this micro-step fails (R28; log 6). -/
def rxFail (s : State) : Bool := (rxRequest s).isSome && s.readScript.headD false

/-- `rx_data`: the bytes the request returns, oldest first; none where there is no request or it fails (R27). -/
def rxData (s : State) : Option (List Byte) := (rxRequest s).bind fun n => (rxRead n s).1

end Sys2Proof.Machine
end

