-- ==== Sys2Proof/Machine/Rules.lean ====
section
/-! DEFINITION. The spec's own pseudocode, rule by rule: R67 to R72 of 40_framer.md and `dispatch` of 41_dispatch.md R85,
written over the primitives as the rules write it, with no instruction and no decoder. The machine that runs is
`microStep`; that the two agree is a claim (Certificates/Slice0/Obligations.lean). -/

namespace Sys2Proof.Machine

/-- What a micro-step of the pseudocode returns (00_scope.md R7). -/
inductive Micro where
  | progress (s : State)
  | noProgress (s : State)
  | fault (f : Fault)
deriving DecidableEq, Repr

/-- The `drain` loop goes on after `Progress` and returns after `NoProgress` (40_framer.md R65). -/
def Micro.result : Micro → Result
  | .progress s => .next s
  | .noProgress s => .next (Sys2Proof.Machine.noProgress s)
  | .fault f => .fault f

/-- The payload slots of R85: `count` committed bytes from slot `i` on. -/
def readSlots : Nat → Nat → State → Except Fault (List Byte)
  | _, 0, _ => .ok []
  | i, count + 1, s =>
    match readSlot true i s, readSlots (i + 1) count s with
    | .error f, _ => .error f
    | _, .error f => .error f
    | .ok b, .ok bs => .ok (b :: bs)

/-- `dispatch()` of 41_dispatch.md R85: every operand is read from the Parser State. -/
def ruleDispatch (s : State) : Except Fault State :=
  match readSize s with
  | .error f => .error f
  | .ok n =>
    if n = 0#8 then .ok s
    else
      match readSlot true 1 s, readSlot true 2 s, readSlot true 4 s, readSlots 5 (n.toNat - 1) s with
      | .error f, _, _, _ => .error f
      | _, .error f, _, _ => .error f
      | _, _, .error f, _ => .error f
      | _, _, _, .error f => .error f
      | .ok addr, .ok sub, .ok command, .ok payload =>
        if addr = broadcast ∧ command = s.cfg.pingOpcode then
          .ok (txWrite [startMarker, 0x00#8, 0x00#8, 0x04#8, s.cfg.pongOpcode, s.cfg.deviceAddress, s.cfg.minDrive,
            s.cfg.maxDrive] s)
        else if addr = broadcast then .ok (sysMessage command payload s)
        else .ok (devMessage sub command payload s)

/-- One byte, or none where the read fails. -/
def readOne (s : State) : Option Byte × State :=
  match rxRead 1 s with
  | (some (b :: _), t) => (some b, t)
  | (_, t) => (none, t)

/-- R67. -/
def ruleAwaitStart (s : State) : Micro :=
  if rxAvail s = 0 then .noProgress s
  else
    match readOne s with
    | (none, t) => .noProgress t
    | (some b, t) =>
      if b = startMarker then .progress { t with pos := .awaitAddress }
      else .progress { t with pos := .awaitStart }

/-- R68. -/
def ruleAwaitAddress (s : State) : Micro :=
  if rxAvail s = 0 then .noProgress s
  else
    match readOne s with
    | (none, t) => .noProgress t
    | (some b, t) =>
      if b = broadcast ∨ b = s.cfg.deviceAddress then
        .progress { t with sb := t.sb.put 1 b, pos := .awaitSubAddress }
      else .progress { t with pos := .awaitStart }

/-- R69. -/
def ruleAwaitSubAddress (s : State) : Micro :=
  if rxAvail s = 0 then .noProgress s
  else
    match readOne s with
    | (none, t) => .noProgress t
    | (some b, t) =>
      if b = 0x00#8 ∨ (s.cfg.minDrive.toNat ≤ b.toNat ∧ b.toNat ≤ s.cfg.maxDrive.toNat) then
        .progress { t with sb := t.sb.put 2 b, pos := .awaitSize }
      else .progress { t with pos := .awaitStart }

/-- R70. -/
def ruleAwaitSize (s : State) : Micro :=
  if rxAvail s = 0 then .noProgress s
  else
    match readOne s with
    | (none, t) => .noProgress t
    | (some b, t) => .progress { t with dbs := some b, pos := .awaitBody }

/-- R72 where the declared size exceeds `MAX_BODY`, R71 otherwise. -/
def ruleAwaitBody (s : State) : Micro :=
  match readSize s with
  | .error f => .fault f
  | .ok n =>
    if s.cfg.maxBody < n.toNat then .progress { s with pos := .awaitStart }
    else if rxAvail s < n.toNat then .noProgress s
    else
      match rxRead n.toNat s with
      | (none, t) => .noProgress t
      | (some body, t) =>
        match storeBody body t with
        | .error f => .fault f
        | .ok u =>
          match ruleDispatch u with
          | .error f => .fault f
          | .ok v => .progress { v with pos := .awaitStart }

/-- `step()` of R66. -/
def ruleStep (s : State) : Micro :=
  match s.pos with
  | .awaitStart => ruleAwaitStart s
  | .awaitAddress => ruleAwaitAddress s
  | .awaitSubAddress => ruleAwaitSubAddress s
  | .awaitSize => ruleAwaitSize s
  | .awaitBody => ruleAwaitBody s

end Sys2Proof.Machine
end

