-- ==== Sys2Proof/Machine/Drain.lean ====
section
/-! DEFINITION. The `drain` call as a whole (40_framer.md R65), built from the machine's own step, and the deliveries of a
byte stream that the laws R75 to R78 speak of. -/

namespace Sys2Proof.Machine

/-- Steps until the running call returns, at most `k` of them. -/
def drainLoop : Nat → State → Result
  | 0, s => .next s
  | k + 1, s =>
    match step s with
    | .next t => if t.draining then drainLoop k t else .next t
    | .fault f => .fault f
    | .refused r => .refused r

/-- The number of micro-steps within which a call returns when nothing arrives (R75). -/
def drainBound (s : State) : Nat := 2 * s.rxq.length + 2

/-- One call of `drain` with no arrival during it. -/
def drain (s : State) : Result :=
  drainLoop (drainBound s) { s with draining := true, turns := [] }

/-- A whole delivery put at the tail of the byte source (20_memory.md R29). DESIGN CHOICE, log 5: `RX_CAP` is not looked at,
so nothing of the delivery is lost, also where it makes the source hold more than `RX_CAP` bytes; a byte that the sender's
turn brings to a full source is lost (`arrive`). -/
def feed (bytes : List Byte) (s : State) : State := { s with rxq := s.rxq ++ bytes }

/-- A final `drain` in which no read fails (R76: every failed step is eventually retried). -/
def finish (s : State) : Result := drain { s with readScript := [] }

/-- Delivers a stream piece by piece, one `drain` call after each piece, and one more at the end (R78). -/
def deliver : List (List Byte) → State → Result
  | [], s => drain s
  | piece :: rest, s =>
    match drain (feed piece s) with
    | .next t => deliver rest t
    | .fault f => .fault f
    | .refused r => .refused r

/-- The bytes the sender appends in a schedule. -/
def sentBytes : List Turn → List Byte
  | [] => []
  | .sender b :: rest => b :: sentBytes rest
  | .block :: rest | .hostDrain :: rest | .hostReset :: rest | .hostConfigure _ :: rest => sentBytes rest

/-- A schedule in which only the sender, the host's `drain` calls and the block move: no reset, no reconfiguration. -/
def plainTurn : Turn → Bool
  | .block | .sender _ | .hostDrain => true
  | .hostReset | .hostConfigure _ => false

end Sys2Proof.Machine
end

