-- ==== Sys2Proof/Safety.lean ====
section
/-! DEFINITION. The invariant of the machine and what a finished run is (10_state.md R18, R22; 40_framer.md R75;
92_eei_decisions.md D22). -/

namespace Sys2Proof.Machine

open Sys2Proof

/-- The validated prefix (R18): once past AwaitAddress, `SB[1]` holds an accepted address; once past AwaitSubAddress,
`SB[2]` holds a valid sub-address; at AwaitBody, `DBS` holds the size (R13). -/
structure ValidatedPrefix (s : State) : Prop where
  address : s.pos = .awaitSubAddress ∨ s.pos = .awaitSize ∨ s.pos = .awaitBody →
    ∃ a, s.sb.slot 1 = some a ∧ acceptsAddress s.cfg a = true
  subAddress : s.pos = .awaitSize ∨ s.pos = .awaitBody → ∃ b, s.sb.slot 2 = some b ∧ validSub s.cfg b = true
  size : s.pos = .awaitBody → ∃ n, s.dbs = some n

/-- The scratch buffer keeps its canonical form; only slots that exist hold a value, and never the reserved slots 0 and 3
(R14, R15). -/
structure BufferSound (s : State) : Prop where
  canonical : s.sb.wf = true
  slots : ∀ a b, s.sb.slot a = some b → a ≠ 0 ∧ a ≠ 3 ∧ a < slotCount s.cfg

/-- The bytes an event put on the sink. -/
def Event.sinkBytes : Event → List Byte
  | .tx bytes => bytes
  | .sys _ _ | .dev _ _ _ => []

/-- What an output event can be under a configuration (95_test_vectors.md T1, T3, T4). -/
def Event.sound (c : Config) : Event → Prop
  | .tx bytes => bytes = pongFrame c
  | .sys cmd payload => cmd ≠ c.pingOpcode ∧ payload.length + 1 ≤ bodyCap c
  | .dev sub _ payload => validSub c sub = true ∧ payload.length + 1 ≤ bodyCap c

/-- `TXQ` is the concatenation of the `Tx` elements of `EVT` (R22), and every event is one the rules can produce. -/
structure HistorySound (s : State) : Prop where
  sink : s.txq = s.evt.flatMap Event.sinkBytes
  events : ∀ e ∈ s.evt, e.sound s.cfg

/-- The byte source holds no more than it can (20_memory.md R30). -/
def SourceBounded (s : State) : Prop := ∀ k, s.cfg.rxCap = some k → s.rxq.length ≤ k

/-- The invariant of every reachable state. -/
structure Inv (s : State) : Prop where
  legal : s.cfg.wf = true
  validated : ValidatedPrefix s
  buffer : BufferSound s
  history : HistorySound s
  source : SourceBounded s

/-- The block can do nothing more without a byte (40_framer.md R75). -/
def Quiescent (s : State) : Prop :=
  (s.rxq = [] ∧ s.pos ≠ .awaitBody) ∨
  (s.pos = .awaitBody ∧ ∃ n : Byte, s.dbs = some n ∧ n.toNat ≤ bodyCap s.cfg ∧ 1 ≤ n.toNat ∧ s.rxq.length < n.toNat)

/-- A finished run that owes nothing (D22). -/
def Complete (s : State) : Prop := s.pos = .awaitStart ∧ s.rxq = []

/-- A finished run that waits for bytes it is owed (D22, 70_reset_and_hazards.md R125). -/
def Wedged (s : State) : Prop := Quiescent s ∧ ¬ Complete s

/-! ### The terms the statements are written in -/

/-- It is the block's turn inside a running `drain` call, under a legal configuration. -/
structure BlockMoves (s : State) : Prop where
  legal : s.cfg.wf = true
  running : s.draining = true
  turn : s.turns = []

/-- The next `RxRead` does not fail (20_memory.md R28). -/
def ReadSucceeds (s : State) : Prop := s.readScript.headD false = false

/-- The block is about to complete a frame: header taken and stored, the whole body at the head of the byte source, and
it fits the buffer (40_framer.md R71). -/
structure BodyReady (s : State) (addr sub : Byte) (body rest : List Byte) : Prop where
  moves : BlockMoves s
  reads : ReadSucceeds s
  position : s.pos = .awaitBody
  address : s.sb.slot 1 = some addr
  subAddress : s.sb.slot 2 = some sub
  size : s.dbs = some (BitVec.ofNat 8 body.length)
  fits : body.length ≤ bodyCap s.cfg
  bytes : s.rxq = body ++ rest

/-- The state after a frame with this body has been taken and before its output: the read answered, the bytes gone from
the source, the body in slots 4, 5, …, `POS` back at AwaitStart (R71). -/
def bodyTaken (body rest : List Byte) (s : State) : State :=
  { s with readScript := s.readScript.tail, rxq := rest, sb := s.sb.putAll 4 body, pos := .awaitStart }

/-- The output events of each instruction (41_dispatch.md R86 to R89, 30_encoding.md R55, R56). -/
def outputs (c : Config) : Instr → List Event
  | .sysPing _ _ _ => [.tx (pongFrame c)]
  | .sysMsg _ cmd payload => [.sys cmd payload]
  | .devMsg _ sub cmd payload => [.dev sub cmd payload]
  | .pong opcode addr lo hi => [.tx (pongBytes opcode addr lo hi)]
  | .sysEmpty _ | .devEmpty _ _ | .rejNoise _ | .rejAddr _ | .rejSub _ _ | .rejSize _ _ _ => []

/-- How many header micro-steps come before the micro-step that runs an instruction. -/
def headerSteps : Instr → Nat
  | .rejNoise _ => 0
  | .rejAddr _ => 1
  | .rejSub _ _ => 2
  | .sysPing _ _ _ | .sysMsg _ _ _ | .devMsg _ _ _ _ | .sysEmpty _ | .devEmpty _ _ | .rejSize _ _ _ | .pong _ _ _ _ => 4

/-- The transitions of `POS` (10_state.md R12): the table of changes, and staying. -/
def positionMoves : List (Pos × Pos) :=
  [(.awaitStart, .awaitStart), (.awaitStart, .awaitAddress), (.awaitAddress, .awaitSubAddress),
    (.awaitAddress, .awaitStart), (.awaitSubAddress, .awaitSize), (.awaitSubAddress, .awaitStart),
    (.awaitSize, .awaitBody), (.awaitBody, .awaitStart)]

end Sys2Proof.Machine
end

