-- ==== Sys2Proof/Certificates/Slice0/Obligations.lean ====
section
/-! DEFINITION. The statements for the provers. Each holds for every configuration, every content of the byte source, every
slot and every oracle of read failures, but for the premises it names. -/

open Sys2Proof Sys2Proof.Machine

/-! ### Encoding -/

/-- 30_encoding.md R45 to R56: no bit of any received instruction's encoding is dropped or misplaced, whatever bytes
follow it. -/
def Obligations.DecodeInvertsEncode : Prop :=
  ∀ (c : Config) (i : Instr) (rest : List Byte), i.wf c = true → i.received = true →
    decode c (encode i ++ rest) = .ok (i, rest)

/-- The other direction: what the decoder reads is well formed, is a received instruction, and is encoded by exactly the
bytes it was read from; the bytes after it are left untouched (60_exceptions.md: nothing is skipped). -/
def Obligations.DecodedInstructionIsWellFormed : Prop :=
  ∀ (c : Config) (bytes : List Byte) (i : Instr) (rest : List Byte), decode c bytes = .ok (i, rest) →
    i.wf c = true ∧ i.received = true ∧ bytes = encode i ++ rest

/-- 30_encoding.md R54: every byte string that passes the four checks falls in exactly one class, decided by the address,
the size and, for a broadcast frame, the command. -/
def Obligations.AcceptedFrameHasItsClass : Prop :=
  ∀ (c : Config) (addr sub : Byte) (body rest : List Byte), c.wf = true →
    acceptsAddress c addr = true → validSub c sub = true → body.length ≤ bodyCap c →
    (body = [] → addr = 0x00#8 → decode c (frame addr sub body ++ rest) = .ok (.sysEmpty sub, rest)) ∧
    (body = [] → addr = c.deviceAddress → decode c (frame addr sub body ++ rest) = .ok (.devEmpty addr sub, rest)) ∧
    (∀ cmd payload, body = cmd :: payload →
      (addr = 0x00#8 → cmd = c.pingOpcode →
        decode c (frame addr sub body ++ rest) = .ok (.sysPing sub cmd payload, rest)) ∧
      (addr = 0x00#8 → cmd ≠ c.pingOpcode →
        decode c (frame addr sub body ++ rest) = .ok (.sysMsg sub cmd payload, rest)) ∧
      (addr = c.deviceAddress → decode c (frame addr sub body ++ rest) = .ok (.devMsg addr sub cmd payload, rest))) ∧
    (addr = 0x00#8 ∨ addr = c.deviceAddress) ∧ c.deviceAddress ≠ 0x00#8

/-- Decoding stops only because the bytes run out, and then within one longest frame (30_encoding.md R51, R55): some
continuation makes an instruction of them, so no byte string is undecodable. -/
def Obligations.DecodingStopsOnlyForBytes : Prop :=
  ∀ (c : Config) (bytes : List Byte) (p : Pos), decode c bytes = .error (.truncated p) →
    bytes.length < 259 ∧ ∃ (more : List Byte) (i : Instr), decode c (bytes ++ more) = .ok (i, [])

/-- Words written out from the tables of 30_encoding.md R54 and R55 decode to the instructions they stand for
(configuration: the default, 95_test_vectors.md CFG_A; last line CFG_C with `MAX_BODY` 16). -/
def Obligations.WrittenOutWordsDecode : Prop :=
  decode Config.default [0x4D#8, 0x00#8, 0x00#8, 0x01#8, 0x80#8] = .ok (.sysPing 0x00#8 0x80#8 [], []) ∧
  decode Config.default [0x4D#8, 0x00#8, 0x05#8, 0x02#8, 0x82#8, 0x0A#8] = .ok (.sysMsg 0x05#8 0x82#8 [0x0A#8], []) ∧
  decode Config.default [0x4D#8, 0x01#8, 0x03#8, 0x02#8, 0x09#8, 0x3C#8] =
    .ok (.devMsg 0x01#8 0x03#8 0x09#8 [0x3C#8], []) ∧
  decode Config.default [0x4D#8, 0x00#8, 0x08#8, 0x00#8] = .ok (.sysEmpty 0x08#8, []) ∧
  decode Config.default [0x4D#8, 0x01#8, 0x01#8, 0x00#8] = .ok (.devEmpty 0x01#8 0x01#8, []) ∧
  decode Config.default [0x4C#8] = .ok (.rejNoise 0x4C#8, []) ∧
  decode Config.default [0x4D#8, 0x4D#8] = .ok (.rejAddr 0x4D#8, []) ∧
  decode Config.default [0x4D#8, 0x01#8, 0x09#8] = .ok (.rejSub 0x01#8 0x09#8, []) ∧
  decode { Config.default with maxBody := 16 } [0x4D#8, 0x01#8, 0x01#8, 0x11#8] =
    .ok (.rejSize 0x01#8 0x01#8 0x11#8, [])

/-- 30_encoding.md R57: a received Pong frame is a well-formed broadcast frame of size 4 with a valid sub-address, is
classed `SYS_MSG` when the two opcodes differ, and its execution calls `SysMsg(PONG_OPCODE, [addr, min, max])` with the
sender's three values. -/
def Obligations.ReceivedPongIsSystemMessage : Prop :=
  ∀ (c : Config) (addr lo hi : Byte) (rest : List Byte), c.pongOpcode ≠ c.pingOpcode → 4 ≤ bodyCap c →
    encode (.pong c.pongOpcode addr lo hi) = frame 0x00#8 0x00#8 [c.pongOpcode, addr, lo, hi] ∧
    validSub c 0x00#8 = true ∧
    decode c (encode (.pong c.pongOpcode addr lo hi) ++ rest) =
      .ok (.sysMsg 0x00#8 c.pongOpcode [addr, lo, hi], rest) ∧
    outputs c (.sysMsg 0x00#8 c.pongOpcode [addr, lo, hi]) = [.sys c.pongOpcode [addr, lo, hi]]

/-- 40_framer.md R80: `0x00` and every value of the drive range are accepted (the decoder goes on to the size byte); the
neighbours outside the range are rejected where the rule says they are. -/
def Obligations.SubAddressNeighbours : Prop :=
  ∀ (c : Config) (addr : Byte) (rest : List Byte), acceptsAddress c addr = true →
    (∀ s : Byte, (s = 0x00#8 ∨ (c.minDrive.toNat ≤ s.toNat ∧ s.toNat ≤ c.maxDrive.toNat)) →
      decode c [0x4D#8, addr, s] = .error (.truncated .awaitSize)) ∧
    (2 ≤ c.minDrive.toNat → decode c (0x4D#8 :: addr :: (c.minDrive - 1#8) :: rest) =
      .ok (.rejSub addr (c.minDrive - 1#8), rest)) ∧
    (c.maxDrive.toNat ≤ 254 →
      decode c (0x4D#8 :: addr :: (c.maxDrive + 1#8) :: rest) = .ok (.rejSub addr (c.maxDrive + 1#8), rest))

/-! ### The five state rules, one micro-step each -/

/-- 40_framer.md R67. That a failed read leaves the byte source as it was is the spec's decision D10, the model's choice of
log 6. -/
def Obligations.AwaitStartScansForMarker : Prop :=
  ∀ s : State, BlockMoves s → s.pos = .awaitStart →
    (s.rxq = [] → step s = .next { s with draining := false }) ∧
    (∀ b rest, s.rxq = b :: rest →
      (¬ ReadSucceeds s → step s = .next { s with draining := false, readScript := s.readScript.tail }) ∧
      (ReadSucceeds s → b = 0x4D#8 →
        step s = .next { s with readScript := s.readScript.tail, rxq := rest, pos := .awaitAddress }) ∧
      (ReadSucceeds s → b ≠ 0x4D#8 →
        step s = .next { s with readScript := s.readScript.tail, rxq := rest, pos := .awaitStart }))

/-- 40_framer.md R68: slot 1 is the only slot written, and only on accept. That the micro-step tests for a byte first is the
spec's decision D2. -/
def Obligations.AwaitAddressDecodesTarget : Prop :=
  ∀ s : State, BlockMoves s → s.pos = .awaitAddress →
    (s.rxq = [] → step s = .next { s with draining := false }) ∧
    (∀ b rest, s.rxq = b :: rest →
      (¬ ReadSucceeds s → step s = .next { s with draining := false, readScript := s.readScript.tail }) ∧
      (ReadSucceeds s → (b = 0x00#8 ∨ b = s.cfg.deviceAddress) →
        step s = .next { s with
          readScript := s.readScript.tail, rxq := rest, sb := s.sb.put 1 b, pos := .awaitSubAddress }) ∧
      (ReadSucceeds s → ¬ (b = 0x00#8 ∨ b = s.cfg.deviceAddress) →
        step s = .next { s with readScript := s.readScript.tail, rxq := rest, pos := .awaitStart }))

/-- 40_framer.md R69, with decision D2 as in R68; the premise on the prefix is an invariant (`StepKeepsInvariant`). -/
def Obligations.AwaitSubAddressChecksRange : Prop :=
  ∀ s : State, BlockMoves s → ValidatedPrefix s → s.pos = .awaitSubAddress →
    (s.rxq = [] → step s = .next { s with draining := false }) ∧
    (∀ b rest, s.rxq = b :: rest →
      (¬ ReadSucceeds s → step s = .next { s with draining := false, readScript := s.readScript.tail }) ∧
      (ReadSucceeds s → (b = 0x00#8 ∨ (s.cfg.minDrive.toNat ≤ b.toNat ∧ b.toNat ≤ s.cfg.maxDrive.toNat)) →
        step s = .next { s with
          readScript := s.readScript.tail, rxq := rest, sb := s.sb.put 2 b, pos := .awaitSize }) ∧
      (ReadSucceeds s → ¬ (b = 0x00#8 ∨ (s.cfg.minDrive.toNat ≤ b.toNat ∧ b.toNat ≤ s.cfg.maxDrive.toNat)) →
        step s = .next { s with readScript := s.readScript.tail, rxq := rest, pos := .awaitStart }))

/-- 40_framer.md R70, with decision D2 as in R68: the size byte is latched whatever its value. -/
def Obligations.AwaitSizeLatchesAnySize : Prop :=
  ∀ s : State, BlockMoves s → ValidatedPrefix s → s.pos = .awaitSize →
    (s.rxq = [] → step s = .next { s with draining := false }) ∧
    (∀ b rest, s.rxq = b :: rest →
      (¬ ReadSucceeds s → step s = .next { s with draining := false, readScript := s.readScript.tail }) ∧
      (ReadSucceeds s →
        step s = .next { s with readScript := s.readScript.tail, rxq := rest, dbs := some b, pos := .awaitBody }))

/-- 40_framer.md R71, the waiting half: a body that is not wholly there is not touched; and a failed body read changes
nothing (R73). -/
def Obligations.AwaitBodyWaitsForWholeBody : Prop :=
  ∀ (s : State) (n : Byte), BlockMoves s → ValidatedPrefix s → s.pos = .awaitBody → s.dbs = some n →
    n.toNat ≤ s.cfg.maxBody →
    (s.rxq.length < n.toNat → step s = .next { s with draining := false }) ∧
    (n.toNat ≤ s.rxq.length → ¬ ReadSucceeds s →
      step s = .next { s with draining := false, readScript := s.readScript.tail })

/-- 40_framer.md R72: the guard needs no byte, consumes none and writes `POS` only. Its place, before the availability test,
is the spec's decision D5 (log 19). -/
def Obligations.OversizeGuardResets : Prop :=
  ∀ (s : State) (n : Byte), BlockMoves s → ValidatedPrefix s → s.pos = .awaitBody → s.dbs = some n →
    s.cfg.maxBody < n.toNat → step s = .next { s with pos := .awaitStart }

/-- 40_framer.md R73 and 60_exceptions.md R105, at every position: when the read of the step fails, the Parser State, the
streams and the history are exactly as they were, the call returns, and only the oracle has moved on. That the byte source
is as it was is no word of R73: it is the spec's decision D10, the model's choice of log 6. -/
def Obligations.FailedReadLosesNothing : Prop :=
  ∀ (s t : State), BlockMoves s → ValidatedPrefix s → ¬ ReadSucceeds s → step s = .next t →
    (t = { s with draining := false } ∨ t = { s with draining := false, readScript := s.readScript.tail }) ∨
    (s.pos = .awaitBody ∧ (∃ n : Byte, s.dbs = some n ∧ s.cfg.maxBody < n.toNat) ∧ t = { s with pos := .awaitStart })

/-! ### Dispatch, from the bytes of the body (41_dispatch.md) -/

/-- R86: an empty frame, to either address, consumes nothing more, writes no slot and has no output. -/
def Obligations.EmptyFrameDoesNothing : Prop :=
  ∀ (s : State) (addr sub : Byte) (rest : List Byte), BodyReady s addr sub [] rest →
    step s = .next { s with readScript := s.readScript.tail, pos := .awaitStart }

/-- R87: a broadcast frame whose first body byte is the ping opcode writes the eight bytes of the Pong frame in one
write, whatever the payload, and calls nobody. -/
def Obligations.BroadcastPingIsAnswered : Prop :=
  ∀ (s : State) (sub : Byte) (payload rest : List Byte),
    BodyReady s 0x00#8 sub (s.cfg.pingOpcode :: payload) rest →
    step s = .next { bodyTaken (s.cfg.pingOpcode :: payload) rest s with
      txq := s.txq ++ [0x4D#8, 0x00#8, 0x00#8, 0x04#8, s.cfg.pongOpcode, s.cfg.deviceAddress, s.cfg.minDrive,
        s.cfg.maxDrive]
      evt := s.evt ++ [.tx [0x4D#8, 0x00#8, 0x00#8, 0x04#8, s.cfg.pongOpcode, s.cfg.deviceAddress, s.cfg.minDrive,
        s.cfg.maxDrive]] }

/-- R88: any other broadcast frame with a body is one call of the system handler with its command and payload; the pong
opcode is no exception, and the sub-address is not passed on. -/
def Obligations.BroadcastMessageIsForwarded : Prop :=
  ∀ (s : State) (sub cmd : Byte) (payload rest : List Byte), BodyReady s 0x00#8 sub (cmd :: payload) rest →
    cmd ≠ s.cfg.pingOpcode →
    step s = .next { bodyTaken (cmd :: payload) rest s with evt := s.evt ++ [.sys cmd payload] }

/-- R89: a frame with a body for this device is one call of the device handler, the ping opcode being no exception, and
nothing is written to the sink. -/
def Obligations.DeviceMessageIsForwarded : Prop :=
  ∀ (s : State) (addr sub cmd : Byte) (payload rest : List Byte), BodyReady s addr sub (cmd :: payload) rest →
    addr ≠ 0x00#8 →
    step s = .next { bodyTaken (cmd :: payload) rest s with evt := s.evt ++ [.dev sub cmd payload] }

/-! ### Every instruction completes: what `exec` answers -/

/-- The broadcast frames, where the body can be read and fits (40_framer.md R71, 41_dispatch.md R86 to R88). -/
def Obligations.SystemFramesComplete : Prop :=
  ∀ (s : State) (sub cmd : Byte) (payload : List Byte), ReadSucceeds s →
    (payload.length + 1 ≤ s.rxq.length → payload.length + 1 ≤ bodyCap s.cfg →
      exec (.sysPing sub cmd payload) s = .next { s with
        readScript := s.readScript.tail, rxq := s.rxq.drop (payload.length + 1),
        sb := s.sb.putAll 4 (s.rxq.take (payload.length + 1)), pos := .awaitStart,
        txq := s.txq ++ [0x4D#8, 0x00#8, 0x00#8, 0x04#8, s.cfg.pongOpcode, s.cfg.deviceAddress, s.cfg.minDrive,
          s.cfg.maxDrive],
        evt := s.evt ++ [.tx [0x4D#8, 0x00#8, 0x00#8, 0x04#8, s.cfg.pongOpcode, s.cfg.deviceAddress, s.cfg.minDrive,
          s.cfg.maxDrive]] } ∧
      exec (.sysMsg sub cmd payload) s = .next { s with
        readScript := s.readScript.tail, rxq := s.rxq.drop (payload.length + 1),
        sb := s.sb.putAll 4 (s.rxq.take (payload.length + 1)), pos := .awaitStart,
        evt := s.evt ++ [.sys cmd payload] }) ∧
    exec (.sysEmpty sub) s = .next { s with readScript := s.readScript.tail, pos := .awaitStart }

/-- The frames for this device, where the body can be read and fits (R71, R86, R89). -/
def Obligations.DeviceFramesComplete : Prop :=
  ∀ (s : State) (addr sub cmd : Byte) (payload : List Byte), ReadSucceeds s →
    (payload.length + 1 ≤ s.rxq.length → payload.length + 1 ≤ bodyCap s.cfg →
      exec (.devMsg addr sub cmd payload) s = .next { s with
        readScript := s.readScript.tail, rxq := s.rxq.drop (payload.length + 1),
        sb := s.sb.putAll 4 (s.rxq.take (payload.length + 1)), pos := .awaitStart,
        evt := s.evt ++ [.dev sub cmd payload] }) ∧
    exec (.devEmpty addr sub) s = .next { s with readScript := s.readScript.tail, pos := .awaitStart }

/-- The rejected inputs (40_framer.md R67, R68, R69, R72; 60_exceptions.md R110): the offending byte is gone, `POS` is
AwaitStart, and nothing else of the block, the streams or the history has changed; the oversize guard takes no byte. -/
def Obligations.RejectedInputsComplete : Prop :=
  ∀ (s : State) (x addr sub n : Byte),
    (ReadSucceeds s → s.rxq ≠ [] →
      exec (.rejNoise x) s =
        .next { s with readScript := s.readScript.tail, rxq := s.rxq.tail, pos := .awaitStart } ∧
      exec (.rejAddr x) s =
        .next { s with readScript := s.readScript.tail, rxq := s.rxq.tail, pos := .awaitStart } ∧
      exec (.rejSub addr x) s =
        .next { s with readScript := s.readScript.tail, rxq := s.rxq.tail, pos := .awaitStart }) ∧
    exec (.rejSize addr sub n) s = .next { s with pos := .awaitStart }

/-- The transmitted frame: one write of its eight bytes, in the order of 30_encoding.md R56, and nothing else. -/
def Obligations.PongIsWrittenWhole : Prop :=
  ∀ (s : State) (opcode addr lo hi : Byte),
    exec (.pong opcode addr lo hi) s = .next { s with
      txq := s.txq ++ [0x4D#8, 0x00#8, 0x00#8, 0x04#8, opcode, addr, lo, hi],
      evt := s.evt ++ [.tx [0x4D#8, 0x00#8, 0x00#8, 0x04#8, opcode, addr, lo, hi]] }

/-- If an execution has ended the `drain` call, it has changed nothing else but at most the oracle (40_framer.md R66). When it
ends the call is said by `ShortOrFailedReadMakesNoProgress`. -/
def Obligations.EndedCallChangesNothingElse : Prop :=
  ∀ (i : Instr) (s t : State), i.received = true → exec i s = .next t → t.draining ≠ s.draining →
    t = { s with draining := false } ∨ t = { s with draining := false, readScript := s.readScript.tail }

/-! ### Frames: what an instruction leaves unchanged -/

/-- The five frame classes, and the size guard: the configuration, `DBS`, the schedule and every slot outside the body
(slots 4 to 3 + N) are unchanged; the byte source loses its first N bytes or nothing; the sink changes for `SYS_PING` only. -/
def Obligations.FrameClassesTouchOnlyTheBody : Prop :=
  ∀ (i : Instr) (s t : State), i.received = true → completesAt i = .awaitBody → exec i s = .next t →
    t.cfg = s.cfg ∧ t.dbs = s.dbs ∧ t.turns = s.turns ∧
    (∀ a, ¬ (4 ≤ a ∧ a < 4 + i.body.length) → t.sb.slot a = s.sb.slot a) ∧
    (t.rxq = s.rxq ∨ t.rxq = s.rxq.drop i.body.length) ∧
    ((∀ sub cmd payload, i ≠ .sysPing sub cmd payload) → t.txq = s.txq) ∧
    (t.evt = s.evt ∨ t.evt = s.evt ++ outputs s.cfg i)

/-- The rejected inputs: every slot, `DBS`, the sink, the history, the configuration and the schedule are unchanged. -/
def Obligations.RejectsTouchNoData : Prop :=
  ∀ (i : Instr) (s t : State),
    (completesAt i ≠ .awaitBody ∨ ∃ addr sub n, i = .rejSize addr sub n) → exec i s = .next t →
    (∀ a, t.sb.slot a = s.sb.slot a) ∧ t.dbs = s.dbs ∧ t.txq = s.txq ∧ t.evt = s.evt ∧ t.cfg = s.cfg ∧
    t.turns = s.turns ∧ (t.pos = s.pos ∨ t.pos = .awaitStart) ∧ (t.rxq = s.rxq ∨ t.rxq = s.rxq.tail)

/-- 20_memory.md R36 (the payload is a value by the spec's decision D21): the payload an event carries is what
slots 5, 6, … hold at the call, and the command is slot 4. -/
def Obligations.DeliveredPayloadIsTheBuffer : Prop :=
  ∀ (s t : State), BlockMoves s → ValidatedPrefix s → step s = .next t →
    ∀ (sub cmd : Byte) (payload : List Byte),
      (t.evt = s.evt ++ [.sys cmd payload] ∨ t.evt = s.evt ++ [.dev sub cmd payload]) →
      s.pos = .awaitBody ∧ s.dbs.map BitVec.toNat = some (payload.length + 1) ∧ t.sb.slot 4 = some cmd ∧
      ∀ (k : Nat) (h : k < payload.length), t.sb.slot (5 + k) = some payload[k]

/-- 41_dispatch.md R95: what a step reads, delivers, writes and does to the position does not depend on any slot but the
two header slots of the frame in flight, so no byte of an earlier frame leaks. -/
def Obligations.StaleBytesNeverLeak : Prop :=
  ∀ (s t : State) (other : Memory), BlockMoves s → other.slot 1 = s.sb.slot 1 → other.slot 2 = s.sb.slot 2 →
    step s = .next t → ∃ m, step { s with sb := other } = .next { t with sb := m }

/-- 41_dispatch.md R96: the consumer cannot tell the sub-address of a broadcast frame. -/
def Obligations.SystemFrameHidesSubAddress : Prop :=
  ∀ (s t : State) (other : Byte), BlockMoves s → s.pos = .awaitBody → s.sb.slot 1 = some 0x00#8 →
    (∃ b, s.sb.slot 2 = some b) → step s = .next t →
    ∃ m, step { s with sb := s.sb.put 2 other } = .next { t with sb := m }

/-! ### Fetch and execute -/

/-- When the instruction in flight completes at the present position, a step is its execution on the same state. -/
def Obligations.StepRunsDecodedInstruction : Prop :=
  ∀ (s : State) (i : Instr) (rest : List Byte), BlockMoves s → inFlight s = .ok (.ok (i, rest)) →
    completesAt i = s.pos → step s = exec i s

/-- When it completes further on, a step takes one header byte and the same instruction, with the same bytes after it, is
still in flight; nothing has been output. -/
def Obligations.HeaderStepKeepsInstruction : Prop :=
  ∀ (s : State) (i : Instr) (rest : List Byte), BlockMoves s → ReadSucceeds s →
    inFlight s = .ok (.ok (i, rest)) → completesAt i ≠ s.pos →
    ∃ t, step s = .next t ∧ inFlight t = .ok (.ok (i, rest)) ∧ t.rxq = s.rxq.tail ∧ t.pos ≠ s.pos ∧
      t.evt = s.evt ∧ t.txq = s.txq ∧ t.cfg = s.cfg ∧ t.draining = true ∧ t.turns = []

/-- From AwaitStart, the instruction at the head of the stream runs in its header steps and one more: its bytes are
consumed and no others (what follows a rejection is rescanned, 70_reset_and_hazards.md R126), its output is exactly the
one of its class, and the parser is back at AwaitStart. -/
def Obligations.WholeInstructionRuns : Prop :=
  ∀ (s : State) (i : Instr) (rest : List Byte), BlockMoves s → s.readScript = [] → s.pos = .awaitStart →
    decode s.cfg s.rxq = .ok (i, rest) →
    ∃ t, Sys2Proof.core.run (headerSteps i + 1) s = .next t ∧ t.rxq = rest ∧ t.pos = .awaitStart ∧
      t.evt = s.evt ++ outputs s.cfg i ∧ t.txq = s.txq ++ (outputs s.cfg i).flatMap Event.sinkBytes ∧
      t.draining = true ∧ t.cfg = s.cfg

/-- 41_dispatch.md R93: a broadcast Ping, with any valid sub-address and any payload that fits, yields exactly the eight
bytes of the Pong on the sink and no consumer call. -/
def Obligations.PingLaw : Prop :=
  ∀ (s : State) (sub : Byte) (payload rest : List Byte), BlockMoves s → s.readScript = [] → s.pos = .awaitStart →
    validSub s.cfg sub = true → payload.length + 1 ≤ bodyCap s.cfg →
    s.rxq = frame 0x00#8 sub (s.cfg.pingOpcode :: payload) ++ rest →
    ∃ t, Sys2Proof.core.run 5 s = .next t ∧ t.rxq = rest ∧ t.pos = .awaitStart ∧
      t.txq = s.txq ++ [0x4D#8, 0x00#8, 0x00#8, 0x04#8, s.cfg.pongOpcode, s.cfg.deviceAddress, s.cfg.minDrive,
        s.cfg.maxDrive] ∧
      t.evt = s.evt ++ [.tx [0x4D#8, 0x00#8, 0x00#8, 0x04#8, s.cfg.pongOpcode, s.cfg.deviceAddress, s.cfg.minDrive,
        s.cfg.maxDrive]]

/-- 41_dispatch.md R94: a frame of size 0 has no output, consumes exactly its four header bytes and leaves `POS` at
AwaitStart. -/
def Obligations.ZeroLengthLaw : Prop :=
  ∀ (s : State) (addr sub : Byte) (rest : List Byte), BlockMoves s → s.readScript = [] → s.pos = .awaitStart →
    acceptsAddress s.cfg addr = true → validSub s.cfg sub = true →
    s.rxq = [0x4D#8, addr, sub, 0x00#8] ++ rest →
    ∃ t, Sys2Proof.core.run 5 s = .next t ∧ t.rxq = rest ∧ t.pos = .awaitStart ∧ t.txq = s.txq ∧ t.evt = s.evt

/-- The machine is the spec's pseudocode: one step of fetch and execute is one micro-step of rules R67 to R72 and R85, in
every state of the invariant's prefix, failing reads included. -/
def Obligations.StepIsTheRulePseudocode : Prop :=
  ∀ s : State, BlockMoves s → ValidatedPrefix s → step s = (ruleStep s).result

/-! ### Invariants and whole-machine rules -/

/-- Every step keeps the invariant: validated prefix (10_state.md R18), sound buffer (R14, R15), sound history (R22), a
byte source within its capacity. -/
def Obligations.StepKeepsInvariant : Prop :=
  ∀ s t : State, Inv s → step s = .next t → Inv t

/-- The state after power-up meets the invariant under every legal configuration, with whatever the source holds. -/
def Obligations.PowerUpMeetsInvariant : Prop :=
  Inv State.reset ∧
  ∀ (c : Config) (held : List Byte), c.wf = true → (∀ k, c.rxCap = some k → held.length ≤ k) →
    Inv (State.powerUp c held)

/-- 10_state.md R23: what power-up leaves. That `DBS` and the slots hold no value is the spec's decision D14 (log 7); the
configuration and the empty source of `State.reset` are the model's choices (logs 4, 21). -/
def Obligations.PowerUpValues : Prop :=
  ∀ (c : Config) (held : List Byte),
    (State.powerUp c held).pos = .awaitStart ∧ (State.powerUp c held).dbs = none ∧
    (∀ a, (State.powerUp c held).sb.slot a = none) ∧ (State.powerUp c held).cfg = c ∧
    (State.powerUp c held).rxq = held ∧ (State.powerUp c held).txq = [] ∧ (State.powerUp c held).evt = [] ∧
    State.reset = State.powerUp Config.default []

/-- 10_state.md R20: no step writes a configuration parameter. -/
def Obligations.ConfigurationIsConstant : Prop :=
  ∀ s t : State, step s = .next t → t.cfg = s.cfg

/-- 10_state.md R12: `POS` moves by the table and no other way; only the reset input moves it outside a micro-step. -/
def Obligations.PositionMovesByTheTable : Prop :=
  ∀ s t : State, step s = .next t → t.pos ≠ s.pos →
    (s.pos, t.pos) ∈ positionMoves ∨ (s.turns.head? = some .hostReset ∧ t.pos = .awaitStart)

/-- 20_memory.md R41 and 41_dispatch.md R91: the history only grows, by at most one event a step; an event happens only in
the step that completes a body, which goes from AwaitBody to AwaitStart, and the sink grows by that event's bytes. -/
def Obligations.HistoryGrowsByOneEvent : Prop :=
  ∀ s t : State, step s = .next t →
    ∃ es : List Event, es.length ≤ 1 ∧ t.evt = s.evt ++ es ∧ t.txq = s.txq ++ es.flatMap Event.sinkBytes ∧
      (es ≠ [] → s.draining = true ∧ s.pos = .awaitBody ∧ t.pos = .awaitStart)

/-- 20_memory.md R32 (95_test_vectors.md T1): along every run from power-up, the sink holds a whole number of Pong frames
and nothing else. -/
def Obligations.SinkHoldsOnlyPongs : Prop :=
  ∀ (c : Config) (held : List Byte) (ts : List Turn) (k : Nat) (t : State), c.wf = true →
    (∀ m, c.rxCap = some m → held.length ≤ m) → Sys2Proof.core.run k { State.powerUp c held with turns := ts } = .next t →
    ∃ m, t.txq = (List.replicate m (pongFrame c)).flatten

/-- 40_framer.md R66: a step that makes no progress has changed nothing of the block, the streams or the history. -/
def Obligations.NoProgressChangesNothing : Prop :=
  ∀ s t : State, BlockMoves s → step s = .next t → t.draining = false →
    t.pos = s.pos ∧ t.dbs = s.dbs ∧ t.sb = s.sb ∧ t.rxq = s.rxq ∧ t.txq = s.txq ∧ t.evt = s.evt

/-- 40_framer.md R74: a step that makes progress consumes at least one byte of the head of the stream, or completes a
frame or applies the guard, both of which leave AwaitBody. -/
def Obligations.ProgressConsumesOrCompletes : Prop :=
  ∀ s t : State, BlockMoves s → step s = .next t → t.draining = true →
    (∃ n, 1 ≤ n ∧ n ≤ s.rxq.length ∧ t.rxq = s.rxq.drop n) ∨
    (t.rxq = s.rxq ∧ s.pos = .awaitBody ∧ t.pos = .awaitStart)

/-- 60_exceptions.md R116: the block never faults, and the model refuses only a nested `drain` and a change of the
parameters: in every state of the invariant every other turn answers a next state. -/
def Obligations.SoundStatesNeverStop : Prop :=
  ∀ s : State, Inv s → (∀ c, s.turns.head? ≠ some (.hostConfigure c)) →
    ¬ (s.turns.head? = some .hostDrain ∧ s.draining = true) → ∃ t, step s = .next t

/-- 70_reset_and_hazards.md R131, 10_state.md R20 and 60_exceptions.md R116: where the model refuses, and by which name
(the refusals are the model's outcomes, logs 10, 13, 14). -/
def Obligations.ViolationsAreRefused : Prop :=
  (∀ s : State, s.cfg.wf = false → step s = .refused .illegalConfiguration) ∧
  (∀ (s : State) (ts : List Turn), s.cfg.wf = true → s.turns = .hostDrain :: ts → s.draining = true →
    step s = .refused .reentrantDrain) ∧
  (∀ (s : State) (c : Config) (ts : List Turn), s.cfg.wf = true → s.turns = .hostConfigure c :: ts →
    step s = .refused .reconfiguration)

/-- 70_reset_and_hazards.md R120: the reset input sets `POS` to AwaitStart and does nothing else (that a running call goes on
is the model's reading, log 12). -/
def Obligations.ResetMovesOnlyPosition : Prop :=
  ∀ (s : State) (ts : List Turn), s.cfg.wf = true → s.turns = .hostReset :: ts →
    step s = .next { s with turns := ts, pos := .awaitStart }

/-- 20_memory.md R29 and 40_framer.md R65, R122: an arrival goes to the tail of the byte source (where the source is full
it is lost: the model's choice, log 5); a call of `drain` starts one; with no call running the block does nothing. -/
def Obligations.SurroundingsMove : Prop :=
  ∀ (s : State) (ts : List Turn) (b : Byte), s.cfg.wf = true →
    (s.turns = .sender b :: ts → (∀ k, s.cfg.rxCap = some k → s.rxq.length < k) →
      step s = .next { s with turns := ts, rxq := s.rxq ++ [b] }) ∧
    (s.turns = .sender b :: ts → ∀ k, s.cfg.rxCap = some k → k ≤ s.rxq.length →
      step s = .next { s with turns := ts }) ∧
    (s.turns = .hostDrain :: ts → s.draining = false → step s = .next { s with turns := ts, draining := true }) ∧
    (s.turns = [] → s.draining = false → step s = .next s)

/-! ### The `drain` call -/

/-- 40_framer.md R75: with no arrival, a call returns within `2 * len(RXQ) + 2` micro-steps, failing reads included; and
when reads do not fail the state on return is one that needs more bytes. -/
def Obligations.DrainReturnsWithinBound : Prop :=
  ∀ s : State, Inv s →
    ∃ t, drain s = .next t ∧ t.draining = false ∧ (s.readScript = [] → Quiescent t)

/-- 40_framer.md R65 (95_test_vectors.md T5): a call that finds no byte changes nothing, outside the two byte-less states. -/
def Obligations.IdleDrainChangesNothing : Prop :=
  ∀ s : State, Inv s → s.rxq = [] → s.turns = [] → s.draining = false →
    (∀ n : Byte, s.pos = .awaitBody → s.dbs = some n → n ≠ 0x00#8 ∧ n.toNat ≤ s.cfg.maxBody) →
    drain s = .next s

/-- 40_framer.md R77: bytes that hold no start marker are all consumed from AwaitStart, with no dispatch. -/
def Obligations.ResynchronisationLaw : Prop :=
  ∀ s : State, s.cfg.wf = true → s.pos = .awaitStart → s.readScript = [] → (∀ b ∈ s.rxq, b ≠ 0x4D#8) →
    drain s = .next { s with rxq := [], draining := false, turns := [] }

/-- 40_framer.md R79: a frame for another device whose bytes after the address hold no start marker never reaches the
consumer, writes no slot and leaves the parser at AwaitStart. -/
def Obligations.ForeignFrameIsFiltered : Prop :=
  ∀ (s : State) (addr : Byte) (rest : List Byte), s.cfg.wf = true → s.pos = .awaitStart → s.readScript = [] →
    s.rxq = 0x4D#8 :: addr :: rest → addr ≠ 0x00#8 → addr ≠ s.cfg.deviceAddress → (∀ b ∈ rest, b ≠ 0x4D#8) →
    drain s = .next { s with rxq := [], draining := false, turns := [] }

/-- 40_framer.md R78 and 95_test_vectors.md T6: a stream delivered in pieces, with a call after each (idle ones
included), ends in the same state, history and all, as the stream delivered at once. A delivery (`feed`) is taken whole, also where it
makes the source hold more than `RX_CAP` bytes: the model's choice, log 5. -/
def Obligations.PiecewiseDeliveryIsTheSame : Prop :=
  ∀ (s : State) (pieces : List (List Byte)), s.cfg.wf = true → ValidatedPrefix s → s.readScript = [] →
    deliver pieces s = drain (feed pieces.flatten s)

/-- 40_framer.md R76: whatever the interleaving of arrivals, `drain` calls, micro-steps and failing reads, what a final
call leaves is what it leaves when the same bytes are all there from the start. The byte source is unbounded here, since
with a bounded one the bytes that arrive depend on the schedule (20_memory.md R30). -/
def Obligations.OutputIsAFunctionOfTheStream : Prop :=
  ∀ (s t : State) (ts : List Turn), s.cfg.wf = true → s.cfg.rxCap = none → ValidatedPrefix s →
    (∀ turn ∈ ts, plainTurn turn = true) → Sys2Proof.core.run ts.length { s with turns := ts } = .next t →
    finish t = finish (feed (sentBytes ts) s)

/-! ### Hazards -/

/-- 70_reset_and_hazards.md R125: a block that waits for bytes makes no progress however often it is called. -/
def Obligations.WaitingBlockStaysWaiting : Prop :=
  ∀ s : State, BlockMoves s → ValidatedPrefix s → Quiescent s → step s = .next { s with draining := false }

/-- 70_reset_and_hazards.md R129 (what overflow loses is the model's choice, log 5): a body larger than the byte source
can hold never completes, whatever the sender sends and however often the host calls. -/
def Obligations.SmallSourceNeverCompletes : Prop :=
  ∀ (s t : State) (k m : Nat) (n : Byte), s.cfg.rxCap = some k → s.rxq.length ≤ k → k < n.toNat →
    s.pos = .awaitBody → s.dbs = some n → n.toNat ≤ s.cfg.maxBody → (∀ turn ∈ s.turns, plainTurn turn = true) →
    Sys2Proof.core.run m s = .next t →
    t.pos = .awaitBody ∧ t.dbs = some n ∧ t.evt = s.evt ∧ t.txq = s.txq ∧ t.sb = s.sb

/-- 70_reset_and_hazards.md R133: `drain` need not return: for any number of micro-steps there is a sender whose arrivals
keep one call running that long. -/
def Obligations.DrainNeedNotReturn : Prop :=
  ∀ (s : State) (b : Byte) (k : Nat), s.cfg.wf = true → s.pos = .awaitStart → s.rxq = [] → s.readScript = [] →
    s.draining = true → b ≠ 0x4D#8 → (∀ m, s.cfg.rxCap = some m → 1 ≤ m) →
    Sys2Proof.core.run (2 * k) { s with turns := (List.replicate k [Turn.sender b, Turn.block]).flatten } =
      .next { s with turns := [] }

/-! ### The port view -/

/-- 70_reset_and_hazards.md R140, the spec's own ports (decision D18, log 24): the sink port carries the Pong frame
as one 64-bit word, byte 0 first; every message port carries a length of at most 254 that is the payload's. -/
def Obligations.PortsCarryTheEvents : Prop :=
  ∀ c : Config,
    (Event.tx (pongFrame c)).transaction =
      .txWrite (0x4D000004#32 ++ c.pongOpcode ++ c.deviceAddress ++ c.minDrive ++ c.maxDrive) ∧
    (∀ cmd payload, (Event.sys cmd payload).sound c →
      ∃ len : Byte, (Event.sys cmd payload).transaction = .sysCall cmd len payload ∧ len.toNat = payload.length ∧
        len.toNat ≤ 254) ∧
    (∀ sub cmd payload, (Event.dev sub cmd payload).sound c →
      ∃ len : Byte, (Event.dev sub cmd payload).transaction = .devCall sub cmd len payload ∧
        len.toNat = payload.length ∧ len.toNat ≤ 254)

/-! ### Committed reads, reads that cannot be made, and the read port -/

/-- 60_exceptions.md R116, 10_state.md R13 and R16, 93_implementation_defined.md U1, U2 and U12: `DBS` read away from
AwaitBody faults; a slot reads as its byte where the frame in flight wrote it and faults everywhere else, on a stale byte of
a longer earlier frame (from slot `4 + DBS` on) as on a slot without a value. `bodyIn` says that the body has been read. -/
def Obligations.ReadsOutsideTheFrameFault : Prop :=
  ∀ (s : State) (slot : Nat) (bodyIn : Bool), (s.pos = .awaitBody → ∃ n, s.dbs = some n) →
    (s.pos ≠ .awaitBody → readSize s = .error .uncommittedSize) ∧
    (∀ n, s.pos = .awaitBody → s.dbs = some n → readSize s = .ok n) ∧
    (∀ b, s.sb.slot slot = some b →
      ((slot = 1 ∧ (s.pos = .awaitSubAddress ∨ s.pos = .awaitSize ∨ s.pos = .awaitBody)) ∨
        (slot = 2 ∧ (s.pos = .awaitSize ∨ s.pos = .awaitBody)) ∨
        (bodyIn = true ∧ s.pos = .awaitBody ∧ ∃ n, s.dbs = some n ∧ 4 ≤ slot ∧ slot < 4 + n.toNat) →
        readSlot bodyIn slot s = .ok b) ∧
      (¬ ((slot = 1 ∧ (s.pos = .awaitSubAddress ∨ s.pos = .awaitSize ∨ s.pos = .awaitBody)) ∨
        (slot = 2 ∧ (s.pos = .awaitSize ∨ s.pos = .awaitBody)) ∨
        (bodyIn = true ∧ s.pos = .awaitBody ∧ ∃ n, s.dbs = some n ∧ 4 ≤ slot ∧ slot < 4 + n.toNat)) →
        readSlot bodyIn slot s = .error (.uncommittedSlot slot))) ∧
    (s.sb.slot slot = none → readSlot bodyIn slot s = .error (.uncommittedSlot slot))

/-- 40_framer.md R67 to R71 and R73: where the bytes an instruction's own micro-step reads are not there, or their read fails,
executing it makes no progress. (`REJ_SIZE` reads none.) That a failed read leaves the source as it was is the spec's
decision D10, log 6. -/
def Obligations.ShortOrFailedReadMakesNoProgress : Prop :=
  ∀ (i : Instr) (s : State) (need : Nat), i.received = true → (∀ addr sub n, i ≠ .rejSize addr sub n) →
    need = (if completesAt i = .awaitBody then i.body.length else 1) →
    (s.rxq.length < need → exec i s = .next { s with draining := false }) ∧
    (need ≤ s.rxq.length → ¬ ReadSucceeds s →
      exec i s = .next { s with draining := false, readScript := s.readScript.tail })

/-- 70_reset_and_hazards.md R140 (the spec's own ports, decision D18, log 24) and 20_memory.md R27: what the read port shows
is what the step does. With no request, nothing is taken and the oracle is not asked; a request is for bytes that are there,
returns the oldest of them, which are gone after the step, or fails and takes none (decision D10, log 6). -/
def Obligations.ReadPortShowsTheRead : Prop :=
  ∀ s t : State, BlockMoves s → ValidatedPrefix s → step s = .next t →
    (rxPop s = none → rxData s = none ∧ rxFail s = false ∧ t.rxq = s.rxq ∧ t.readScript = s.readScript) ∧
    (∀ n : BitVec 9, rxPop s = some n →
      n.toNat ≤ rxAvail s ∧ t.readScript = s.readScript.tail ∧
      (rxFail s = true → rxData s = none ∧ t.rxq = s.rxq) ∧
      (rxFail s = false → rxData s = some (s.rxq.take n.toNat) ∧ t.rxq = s.rxq.drop n.toNat))
end

