-- ==== Sys2Proof/Laws/Memory.lean ====
section
/-! SUPPORT. The laws of the scratch buffer's list: read after write, and the canonical form kept by every operation. -/

namespace Sys2Proof.Machine

@[simp] theorem Memory.slot_put_same (m : Memory) (a : Nat) (b : Byte) : (Memory.put m a b).slot a = some b := by
  induction m with
  | nil => simp [Memory.put, Memory.slot]
  | cons cell m ih =>
    obtain ⟨k, v⟩ := cell
    unfold Memory.put
    split
    · simp [Memory.slot]
    · split
      · simp [Memory.slot]
      · next h => simpa [Memory.slot, Ne.symm h] using ih

theorem Memory.slot_put_other (m : Memory) {a c : Nat} (b : Byte) (h : c ≠ a) :
    (Memory.put m a b).slot c = m.slot c := by
  induction m with
  | nil => simp [Memory.put, Memory.slot, Ne.symm h, unlisted]
  | cons cell m ih =>
    obtain ⟨k, v⟩ := cell
    unfold Memory.put
    split
    · simp [Memory.slot, Ne.symm h]
    · split
      · next _ h' => subst h'; simp [Memory.slot, Ne.symm h]
      · simp [Memory.slot, ih]

/-- A body store leaves every slot outside the body as it was. -/
theorem Memory.slot_putAll_outside (bs : List Byte) (m : Memory) (a c : Nat) (h : c < a ∨ a + bs.length ≤ c) :
    (Memory.putAll m a bs).slot c = m.slot c := by
  induction bs generalizing m a with
  | nil => rfl
  | cons b bs ih =>
    simp only [List.length_cons] at h
    rw [Memory.putAll, ih _ _ (by omega), Memory.slot_put_other _ _ (by omega)]

/-- A body store puts byte `i` of the body at slot `a + i`. -/
theorem Memory.slot_putAll_inside (bs : List Byte) (m : Memory) (a i : Nat) (h : i < bs.length) :
    (Memory.putAll m a bs).slot (a + i) = some bs[i] := by
  induction bs generalizing m a i with
  | nil => simp at h
  | cons b bs ih =>
    cases i with
    | zero => rw [Memory.putAll, Memory.slot_putAll_outside _ _ _ _ (by omega)]; simp
    | succ i =>
      have := ih (m.put a b) (a + 1) i (by simpa using h)
      simpa [Memory.putAll, Nat.add_assoc, Nat.add_comm 1 i] using this

/-- Which slots hold a value after a store. -/
theorem Memory.slot_put (m : Memory) (a c : Nat) (b : Byte) :
    (Memory.put m a b).slot c = if c = a then some b else m.slot c := by
  split
  · next h => rw [h, Memory.slot_put_same]
  · next h => exact Memory.slot_put_other m b h

theorem Memory.all_put (p : Host.Cell → Bool) (m : Memory) (a : Nat) (b : Byte)
    (hm : m.all p = true) (hb : p (a, b) = true) : (Memory.put m a b).all p = true := by
  induction m with
  | nil => simpa [Memory.put] using hb
  | cons cell m ih =>
    obtain ⟨k, v⟩ := cell
    simp only [List.all_cons, Bool.and_eq_true] at hm
    unfold Memory.put
    split
    · simp [hb, hm]
    · split
      · simp [hb, hm]
      · simp [hm.1, ih hm.2]

/-- A store keeps the canonical form. -/
theorem Memory.put_wf (m : Memory) (a : Nat) (b : Byte) (h : m.wf = true) : (Memory.put m a b).wf = true := by
  induction m with
  | nil => rfl
  | cons cell m ih =>
    obtain ⟨k, v⟩ := cell
    simp only [Memory.wf, Bool.and_eq_true] at h
    unfold Memory.put
    split
    · next hlt =>
      have hall : m.all (fun cell => decide (a < cell.1)) = true := by
        rw [List.all_eq_true] at h ⊢
        intro x hx
        have := h.1 x hx
        simp only [decide_eq_true_eq] at this ⊢
        omega
      simp [Memory.wf, hlt, hall, h.1, h.2]
    · split
      · next _ heq => subst heq; simp [Memory.wf, h.1, h.2]
      · next hge hne =>
        have hka : k < a := by omega
        simp [Memory.wf, ih h.2, Memory.all_put _ m a b h.1 (by simpa using hka)]

/-- A body store keeps the canonical form. -/
theorem Memory.putAll_wf (bs : List Byte) (m : Memory) (a : Nat) (h : m.wf = true) :
    (Memory.putAll m a bs).wf = true := by
  induction bs generalizing m a with
  | nil => exact h
  | cons b bs ih => exact ih _ _ (Memory.put_wf m a b h)

end Sys2Proof.Machine
end

