-- ==== Sys2Proof/Laws/State.lean ====
section
/-! SUPPORT. One lemma for each field of each update, so that no proof unfolds a record update. -/

namespace Sys2Proof.Machine

variable (s : State) (b : Byte) (bs : List Byte) (sub cmd : Byte)

@[simp] theorem txWrite_cfg : (txWrite bs s).cfg = s.cfg := rfl
@[simp] theorem txWrite_pos : (txWrite bs s).pos = s.pos := rfl
@[simp] theorem txWrite_dbs : (txWrite bs s).dbs = s.dbs := rfl
@[simp] theorem txWrite_sb : (txWrite bs s).sb = s.sb := rfl
@[simp] theorem txWrite_rxq : (txWrite bs s).rxq = s.rxq := rfl
@[simp] theorem txWrite_txq : (txWrite bs s).txq = s.txq ++ bs := rfl
@[simp] theorem txWrite_evt : (txWrite bs s).evt = s.evt ++ [.tx bs] := rfl
@[simp] theorem txWrite_draining : (txWrite bs s).draining = s.draining := rfl
@[simp] theorem txWrite_readScript : (txWrite bs s).readScript = s.readScript := rfl
@[simp] theorem txWrite_turns : (txWrite bs s).turns = s.turns := rfl

@[simp] theorem sysMessage_cfg : (sysMessage cmd bs s).cfg = s.cfg := rfl
@[simp] theorem sysMessage_pos : (sysMessage cmd bs s).pos = s.pos := rfl
@[simp] theorem sysMessage_dbs : (sysMessage cmd bs s).dbs = s.dbs := rfl
@[simp] theorem sysMessage_sb : (sysMessage cmd bs s).sb = s.sb := rfl
@[simp] theorem sysMessage_rxq : (sysMessage cmd bs s).rxq = s.rxq := rfl
@[simp] theorem sysMessage_txq : (sysMessage cmd bs s).txq = s.txq := rfl
@[simp] theorem sysMessage_evt : (sysMessage cmd bs s).evt = s.evt ++ [.sys cmd bs] := rfl
@[simp] theorem sysMessage_draining : (sysMessage cmd bs s).draining = s.draining := rfl
@[simp] theorem sysMessage_readScript : (sysMessage cmd bs s).readScript = s.readScript := rfl
@[simp] theorem sysMessage_turns : (sysMessage cmd bs s).turns = s.turns := rfl

@[simp] theorem devMessage_cfg : (devMessage sub cmd bs s).cfg = s.cfg := rfl
@[simp] theorem devMessage_pos : (devMessage sub cmd bs s).pos = s.pos := rfl
@[simp] theorem devMessage_dbs : (devMessage sub cmd bs s).dbs = s.dbs := rfl
@[simp] theorem devMessage_sb : (devMessage sub cmd bs s).sb = s.sb := rfl
@[simp] theorem devMessage_rxq : (devMessage sub cmd bs s).rxq = s.rxq := rfl
@[simp] theorem devMessage_txq : (devMessage sub cmd bs s).txq = s.txq := rfl
@[simp] theorem devMessage_evt : (devMessage sub cmd bs s).evt = s.evt ++ [.dev sub cmd bs] := rfl
@[simp] theorem devMessage_draining : (devMessage sub cmd bs s).draining = s.draining := rfl
@[simp] theorem devMessage_readScript : (devMessage sub cmd bs s).readScript = s.readScript := rfl
@[simp] theorem devMessage_turns : (devMessage sub cmd bs s).turns = s.turns := rfl

@[simp] theorem reject_cfg : (reject s).cfg = s.cfg := rfl
@[simp] theorem reject_pos : (reject s).pos = .awaitStart := rfl
@[simp] theorem reject_dbs : (reject s).dbs = s.dbs := rfl
@[simp] theorem reject_sb : (reject s).sb = s.sb := rfl
@[simp] theorem reject_rxq : (reject s).rxq = s.rxq := rfl
@[simp] theorem reject_txq : (reject s).txq = s.txq := rfl
@[simp] theorem reject_evt : (reject s).evt = s.evt := rfl
@[simp] theorem reject_draining : (reject s).draining = s.draining := rfl
@[simp] theorem reject_readScript : (reject s).readScript = s.readScript := rfl
@[simp] theorem reject_turns : (reject s).turns = s.turns := rfl

@[simp] theorem frameDone_cfg : (frameDone s).cfg = s.cfg := rfl
@[simp] theorem frameDone_pos : (frameDone s).pos = .awaitStart := rfl
@[simp] theorem frameDone_dbs : (frameDone s).dbs = s.dbs := rfl
@[simp] theorem frameDone_sb : (frameDone s).sb = s.sb := rfl
@[simp] theorem frameDone_rxq : (frameDone s).rxq = s.rxq := rfl
@[simp] theorem frameDone_txq : (frameDone s).txq = s.txq := rfl
@[simp] theorem frameDone_evt : (frameDone s).evt = s.evt := rfl
@[simp] theorem frameDone_draining : (frameDone s).draining = s.draining := rfl
@[simp] theorem frameDone_readScript : (frameDone s).readScript = s.readScript := rfl
@[simp] theorem frameDone_turns : (frameDone s).turns = s.turns := rfl

@[simp] theorem noProgress_cfg : (noProgress s).cfg = s.cfg := rfl
@[simp] theorem noProgress_pos : (noProgress s).pos = s.pos := rfl
@[simp] theorem noProgress_dbs : (noProgress s).dbs = s.dbs := rfl
@[simp] theorem noProgress_sb : (noProgress s).sb = s.sb := rfl
@[simp] theorem noProgress_rxq : (noProgress s).rxq = s.rxq := rfl
@[simp] theorem noProgress_txq : (noProgress s).txq = s.txq := rfl
@[simp] theorem noProgress_evt : (noProgress s).evt = s.evt := rfl
@[simp] theorem noProgress_draining : (noProgress s).draining = false := rfl
@[simp] theorem noProgress_readScript : (noProgress s).readScript = s.readScript := rfl
@[simp] theorem noProgress_turns : (noProgress s).turns = s.turns := rfl

@[simp] theorem applyReset_cfg : (applyReset s).cfg = s.cfg := rfl
@[simp] theorem applyReset_pos : (applyReset s).pos = .awaitStart := rfl
@[simp] theorem applyReset_dbs : (applyReset s).dbs = s.dbs := rfl
@[simp] theorem applyReset_sb : (applyReset s).sb = s.sb := rfl
@[simp] theorem applyReset_rxq : (applyReset s).rxq = s.rxq := rfl
@[simp] theorem applyReset_txq : (applyReset s).txq = s.txq := rfl
@[simp] theorem applyReset_evt : (applyReset s).evt = s.evt := rfl
@[simp] theorem applyReset_draining : (applyReset s).draining = s.draining := rfl
@[simp] theorem applyReset_readScript : (applyReset s).readScript = s.readScript := rfl
@[simp] theorem applyReset_turns : (applyReset s).turns = s.turns := rfl

@[simp] theorem feed_cfg : (feed bs s).cfg = s.cfg := rfl
@[simp] theorem feed_pos : (feed bs s).pos = s.pos := rfl
@[simp] theorem feed_dbs : (feed bs s).dbs = s.dbs := rfl
@[simp] theorem feed_sb : (feed bs s).sb = s.sb := rfl
@[simp] theorem feed_rxq : (feed bs s).rxq = s.rxq ++ bs := rfl
@[simp] theorem feed_txq : (feed bs s).txq = s.txq := rfl
@[simp] theorem feed_evt : (feed bs s).evt = s.evt := rfl
@[simp] theorem feed_draining : (feed bs s).draining = s.draining := rfl
@[simp] theorem feed_readScript : (feed bs s).readScript = s.readScript := rfl
@[simp] theorem feed_turns : (feed bs s).turns = s.turns := rfl

/-- An arrival changes the byte source only. -/
@[simp] theorem arrive_cfg : (arrive b s).cfg = s.cfg := by unfold arrive; split <;> rfl
@[simp] theorem arrive_pos : (arrive b s).pos = s.pos := by unfold arrive; split <;> rfl
@[simp] theorem arrive_dbs : (arrive b s).dbs = s.dbs := by unfold arrive; split <;> rfl
@[simp] theorem arrive_sb : (arrive b s).sb = s.sb := by unfold arrive; split <;> rfl
@[simp] theorem arrive_txq : (arrive b s).txq = s.txq := by unfold arrive; split <;> rfl
@[simp] theorem arrive_evt : (arrive b s).evt = s.evt := by unfold arrive; split <;> rfl
@[simp] theorem arrive_draining : (arrive b s).draining = s.draining := by unfold arrive; split <;> rfl
@[simp] theorem arrive_readScript : (arrive b s).readScript = s.readScript := by unfold arrive; split <;> rfl
@[simp] theorem arrive_turns : (arrive b s).turns = s.turns := by unfold arrive; split <;> rfl

end Sys2Proof.Machine
end

