-- ==== Sys2Proof/Laws/Ops.lean ====
section
/-! SUPPORT. For each shared operation, what it can do: provers cite these and do not unfold the operations. -/

namespace Sys2Proof.Machine

open Sys2Proof

/-! ### Reading the byte source -/

theorem rxRead_ok {n : Nat} {s : State} (h : ReadSucceeds s) :
    rxRead n s = (some (s.rxq.take n), { s with readScript := s.readScript.tail, rxq := s.rxq.drop n }) := by
  rw [rxRead, if_neg (by rw [show s.readScript.headD false = false from h]; exact Bool.false_ne_true)]

theorem rxRead_fails {n : Nat} {s : State} (h : ¬ ReadSucceeds s) :
    rxRead n s = (none, { s with readScript := s.readScript.tail }) := by
  rw [rxRead, if_pos (Bool.eq_true_of_not_eq_false h)]

theorem readThen_short {n : Nat} {s : State} {k : List Byte → State → Result} (h : s.rxq.length < n) :
    readThen n s k = .next (noProgress s) := by
  simp [readThen, rxAvail, h]

theorem readThen_fails {n : Nat} {s : State} {k : List Byte → State → Result} (hn : n ≤ s.rxq.length)
    (h : ¬ ReadSucceeds s) :
    readThen n s k = .next (noProgress { s with readScript := s.readScript.tail }) := by
  simp [readThen, rxAvail, Nat.not_lt.mpr hn, rxRead_fails h]

theorem readThen_ok {n : Nat} {s : State} {k : List Byte → State → Result} (hn : n ≤ s.rxq.length)
    (h : ReadSucceeds s) :
    readThen n s k = k (s.rxq.take n) { s with readScript := s.readScript.tail, rxq := s.rxq.drop n } := by
  simp [readThen, rxAvail, Nat.not_lt.mpr hn, rxRead_ok h]

/-- Everything `readThen` can do. -/
theorem readThen_cases (n : Nat) (s : State) (k : List Byte → State → Result) :
    (s.rxq.length < n ∧ readThen n s k = .next (noProgress s)) ∨
    (n ≤ s.rxq.length ∧ ¬ ReadSucceeds s ∧
      readThen n s k = .next (noProgress { s with readScript := s.readScript.tail })) ∨
    (n ≤ s.rxq.length ∧ ReadSucceeds s ∧
      readThen n s k = k (s.rxq.take n) { s with readScript := s.readScript.tail, rxq := s.rxq.drop n }) := by
  by_cases hn : s.rxq.length < n
  · exact .inl ⟨hn, readThen_short hn⟩
  · by_cases h : ReadSucceeds s
    · exact .inr (.inr ⟨by omega, h, readThen_ok (by omega) h⟩)
    · exact .inr (.inl ⟨by omega, h, readThen_fails (by omega) h⟩)

/-! ### The committed reads -/

theorem readSlot_ok {bodyIn : Bool} {slot : Nat} {s : State} {b : Byte} (hc : committed bodyIn s slot = true)
    (h : s.sb.slot slot = some b) : readSlot bodyIn slot s = .ok b := by
  simp [readSlot, hc, h]

@[simp] theorem declaredSize_some {s : State} {n : Byte} (h : s.dbs = some n) : declaredSize s = n := by
  simp [declaredSize, h]

/-- Which slots are committed, position by position. -/
theorem committed_iff (bodyIn : Bool) (s : State) (slot : Nat) :
    committed bodyIn s slot = true ↔
      match s.pos with
      | .awaitStart | .awaitAddress => False
      | .awaitSubAddress => slot = 1
      | .awaitSize => slot = 1 ∨ slot = 2
      | .awaitBody => slot = 1 ∨ slot = 2 ∨ (bodyIn = true ∧ 4 ≤ slot ∧ slot < 4 + (declaredSize s).toNat) := by
  have h4 : bodySlot = 4 := rfl
  unfold committed
  cases s.pos <;> simp [addressSlot, subAddressSlot, ← h4, or_assoc, and_assoc]

/-- Everything the read of a slot can answer. -/
theorem readSlot_cases (bodyIn : Bool) (slot : Nat) (s : State) :
    (committed bodyIn s slot = true ∧ ∃ b, s.sb.slot slot = some b ∧ readSlot bodyIn slot s = .ok b) ∨
    ((committed bodyIn s slot = false ∨ s.sb.slot slot = none) ∧
      readSlot bodyIn slot s = .error (.uncommittedSlot slot)) := by
  cases hc : committed bodyIn s slot <;> cases h : s.sb.slot slot <;> simp [readSlot, hc, h]

theorem readSize_ok {s : State} (hp : s.pos = .awaitBody) : readSize s = .ok (declaredSize s) := by
  simp [readSize, hp]

theorem readSize_fault {s : State} (hp : s.pos ≠ .awaitBody) : readSize s = .error .uncommittedSize := by
  simp [readSize, hp]

theorem storeBody_ok {body : List Byte} {s : State} (h : body.length ≤ bodyCap s.cfg) :
    storeBody body s = .ok { s with sb := s.sb.putAll 4 body } := by
  simp [storeBody, h, bodySlot]

theorem storeBody_overflow {body : List Byte} {s : State} (h : bodyCap s.cfg < body.length) :
    storeBody body s = .error (.noSuchSlot (slotCount s.cfg)) := by
  simp [storeBody, Nat.not_le.mpr h]

/-! ### Completing a frame -/

theorem finishFrame_ok {body : List Byte} {d : State → State} {s : State} (h : body.length ≤ bodyCap s.cfg) :
    finishFrame d body s = .next (frameDone (d { s with sb := s.sb.putAll 4 body })) := by
  rw [finishFrame, storeBody_ok h]

theorem finishFrame_overflow {body : List Byte} {d : State → State} {s : State} (h : bodyCap s.cfg < body.length) :
    finishFrame d body s = .fault (.noSuchSlot (slotCount s.cfg)) := by
  rw [finishFrame, storeBody_overflow h]

/-- Everything `completeFrame` can do. -/
theorem completeFrame_cases (body : List Byte) (d : State → State) (s : State) :
    (s.rxq.length < body.length ∧ completeFrame body d s = .next (noProgress s)) ∨
    (body.length ≤ s.rxq.length ∧ ¬ ReadSucceeds s ∧
      completeFrame body d s = .next (noProgress { s with readScript := s.readScript.tail })) ∨
    (body.length ≤ s.rxq.length ∧ ReadSucceeds s ∧ bodyCap s.cfg < body.length ∧
      completeFrame body d s = .fault (.noSuchSlot (slotCount s.cfg))) ∨
    (body.length ≤ s.rxq.length ∧ ReadSucceeds s ∧ body.length ≤ bodyCap s.cfg ∧
      completeFrame body d s = .next (frameDone (d { s with
        readScript := s.readScript.tail, rxq := s.rxq.drop body.length,
        sb := s.sb.putAll 4 (s.rxq.take body.length) }))) := by
  unfold completeFrame
  obtain ⟨h, e⟩ | ⟨h, hr, e⟩ | ⟨h, hr, e⟩ := readThen_cases body.length s (finishFrame d)
  · exact .inl ⟨h, e⟩
  · exact .inr (.inl ⟨h, hr, e⟩)
  · by_cases hc : bodyCap s.cfg < body.length
    · refine .inr (.inr (.inl ⟨h, hr, hc, ?_⟩))
      rw [e, finishFrame_overflow (by simpa [Nat.min_eq_left h] using hc)]
    · refine .inr (.inr (.inr ⟨h, hr, by omega, ?_⟩))
      rw [e, finishFrame_ok (by simp only [List.length_take, Nat.min_eq_left h]; omega)]

/-! ### Arrivals -/

/-- An arrival appends at the tail, or is lost where the source is full. -/
theorem arrive_rxq (b : Byte) (s : State) :
    (arrive b s).rxq = s.rxq ++ [b] ∨ ((arrive b s).rxq = s.rxq ∧ hasRoom s = false) := by
  unfold arrive
  split
  · exact .inl rfl
  · next h => exact .inr ⟨rfl, Bool.eq_false_of_not_eq_true h⟩

end Sys2Proof.Machine
end

