-- ==== Sys2Proof/Laws/Decode.lean ====
section
/-! SUPPORT. What the decoder answers, position by position, and where each decoding ends. -/

namespace Sys2Proof.Machine

open Sys2Proof

/-- Everything `decodeBody` can answer. -/
theorem decodeBody_cases (c) (a s n : Byte) (bs : List Byte) :
    (oversize c n = true ∧ decodeBody c a s n bs = .ok (.rejSize a s n, bs)) ∨
    (oversize c n = false ∧ bs.length < n.toNat ∧ decodeBody c a s n bs = .error (.truncated .awaitBody)) ∨
    (oversize c n = false ∧ n.toNat ≤ bs.length ∧
      decodeBody c a s n bs = .ok (classify c a s (bs.take n.toNat), bs.drop n.toNat)) := by
  unfold decodeBody
  by_cases h : oversize c n = true
  · simp [h]
  · by_cases h2 : bs.length < n.toNat
    · simp [h, h2]
    · simp [h, h2]; omega

theorem completesAt_classify (c) (a s : Byte) (body : List Byte) : completesAt (classify c a s body) = .awaitBody := by
  unfold classify; split <;> split <;> first | rfl | (split <;> rfl)

theorem received_classify (c) (a s : Byte) (body : List Byte) : (classify c a s body).received = true := by
  unfold classify; split <;> split <;> first | rfl | (split <;> rfl)

theorem body_classify (c) (a s : Byte) (body : List Byte) : (classify c a s body).body = body := by
  unfold classify; split <;> split <;> first | rfl | (split <;> rfl)

/-- What the dispatch of each class does to the state (41_dispatch.md R86 to R89). -/
def dispatchOf (c : Config) : Instr → State → State
  | .sysPing _ _ _ => txWrite (pongFrame c)
  | .sysMsg _ cmd p => sysMessage cmd p
  | .devMsg _ sub cmd p => devMessage sub cmd p
  | _ => id

/-- The execution of a classified frame is `completeFrame` with the dispatch of its class. -/
theorem exec_classify (c) (a b : Byte) (body : List Byte) (s : State) :
    exec (classify c a b body) s = completeFrame body (dispatchOf s.cfg (classify c a b body)) s := by
  unfold classify; split <;> split <;> first | rfl | (split <;> rfl)

/-- The position a decoding ends at: where its instruction completes, or where the bytes run out. -/
def endsAt : Except DecodeError (Instr × List Byte) → Pos
  | .ok (i, _) => completesAt i
  | .error (.truncated p) => p

theorem endsAt_decodeBody (c) (a b n : Byte) (bs : List Byte) : endsAt (decodeBody c a b n bs) = .awaitBody := by
  obtain ⟨-, h⟩ | ⟨-, -, h⟩ | ⟨-, -, h⟩ := decodeBody_cases c a b n bs <;> rw [h]
  · rfl
  · rfl
  · exact completesAt_classify ..

theorem endsAt_decodeSize (c) (a b : Byte) (bs : List Byte) :
    endsAt (decodeSize c a b bs) = if bs = [] then .awaitSize else .awaitBody := by
  cases bs with
  | nil => rfl
  | cons n bs => exact endsAt_decodeBody ..

theorem endsAt_decodeSubAddress (c) (a x : Byte) (bs : List Byte) :
    endsAt (decodeSubAddress c a (x :: bs)) =
      if validSub c x then (if bs = [] then .awaitSize else .awaitBody) else .awaitSubAddress := by
  rw [decodeSubAddress]
  split
  · exact endsAt_decodeSize ..
  · rfl

theorem endsAt_decodeAddress (c) (x : Byte) (bs : List Byte) :
    endsAt (decodeAddress c (x :: bs)) =
      if acceptsAddress c x then endsAt (decodeSubAddress c x bs) else .awaitAddress := by
  rw [decodeAddress]; split <;> rfl

theorem endsAt_decode (c) (x : Byte) (bs : List Byte) :
    endsAt (decode c (x :: bs)) = if x == startMarker then endsAt (decodeAddress c bs) else .awaitStart := by
  rw [decode]; split <;> rfl

theorem endsAt_decodeSubAddress_ne (c) (a : Byte) (bs : List Byte) :
    endsAt (decodeSubAddress c a bs) ≠ .awaitAddress ∧ endsAt (decodeSubAddress c a bs) ≠ .awaitStart := by
  cases bs with
  | nil => exact ⟨nofun, nofun⟩
  | cons x bs => rw [endsAt_decodeSubAddress]; split <;> (try split) <;> exact ⟨nofun, nofun⟩

theorem endsAt_decodeAddress_ne (c) (bs : List Byte) : endsAt (decodeAddress c bs) ≠ .awaitStart := by
  cases bs with
  | nil => exact nofun
  | cons x bs =>
    rw [endsAt_decodeAddress]; split
    · exact (endsAt_decodeSubAddress_ne ..).2
    · exact nofun

end Sys2Proof.Machine
end

