-- ==== Sys2Proof/Laws/PerInstr.lean ====
section
/-! SUPPORT. A family of per-instruction laws: how many bytes an instruction's encoding has (30_encoding.md R51). -/

namespace Sys2Proof.Laws.EncodeLength

open Sys2Proof

/-- The number of bytes of each row: four header bytes and the body for a frame, the bytes up to the offending one for a
rejected input, the header for an oversize one. -/
def width : Instr → Nat
  | .sysPing _ _ payload | .sysMsg _ _ payload | .devMsg _ _ _ payload => 5 + payload.length
  | .sysEmpty _ | .devEmpty _ _ | .rejSize _ _ _ => 4
  | .rejNoise _ => 1
  | .rejAddr _ => 2
  | .rejSub _ _ => 3
  | .pong _ _ _ _ => 8

def Statement (i : Instr) : Prop := (encode i).length = width i

theorem sysPing (sub cmd : Byte) (payload : List Byte) : Statement (.sysPing sub cmd payload) := by
  simp [Statement, encode, Machine.frame, width]; omega

theorem sysMsg (sub cmd : Byte) (payload : List Byte) : Statement (.sysMsg sub cmd payload) := by
  simp [Statement, encode, Machine.frame, width]; omega

theorem devMsg (addr sub cmd : Byte) (payload : List Byte) : Statement (.devMsg addr sub cmd payload) := by
  simp [Statement, encode, Machine.frame, width]; omega

theorem sysEmpty (sub : Byte) : Statement (.sysEmpty sub) := rfl

theorem devEmpty (addr sub : Byte) : Statement (.devEmpty addr sub) := rfl

theorem rejNoise (x : Byte) : Statement (.rejNoise x) := rfl

theorem rejAddr (x : Byte) : Statement (.rejAddr x) := rfl

theorem rejSub (addr x : Byte) : Statement (.rejSub addr x) := rfl

theorem rejSize (addr sub n : Byte) : Statement (.rejSize addr sub n) := rfl

theorem pong (opcode addr lo hi : Byte) : Statement (.pong opcode addr lo hi) := rfl

end Sys2Proof.Laws.EncodeLength
end

