-- ==== Sys2Proof/Laws/Sequencer.lean ====
section
/-! SUPPORT. Everything a micro-step and a step can do, said once: an inversion for each (`microStep_next`, `step_next`),
and the move every micro-step makes in a state with its prefix validated (`microStep_moves`). -/

namespace Sys2Proof.Machine

open Sys2Proof

/-- What a micro-step does with a decoding that ends at its own position. -/
def runHere (r : Except DecodeError (Instr × List Byte)) (s : State) : Result :=
  match r with
  | .ok (i, _) => exec i s
  | .error _ => .next (noProgress s)

theorem microStep_of_inFlight {s : State} {r : Except DecodeError (Instr × List Byte)} (h : inFlight s = .ok r) :
    microStep s = if endsAt r = s.pos then runHere r s else takeHeader s := by
  unfold microStep
  rw [h]
  match r with
  | .ok (i, _) => rfl
  | .error (.truncated p) => rfl

/-- The micro-step that takes one byte and either accepts it as the field awaited or rejects. -/
def fieldStep (accept : Byte → Bool) (s : State) : Result :=
  readThen 1 s fun bs t => .next (bs.foldl (fun u b => if accept b then acceptField b u else reject u) t)

theorem fieldStep_nil {accept} {s : State} (h : s.rxq = []) : fieldStep accept s = .next (noProgress s) :=
  readThen_short (by simp [h])

theorem fieldStep_fails {accept} {s : State} (h : s.rxq ≠ []) (hr : ¬ ReadSucceeds s) :
    fieldStep accept s = .next (noProgress { s with readScript := s.readScript.tail }) :=
  readThen_fails (List.length_pos_iff.mpr h) hr

theorem fieldStep_accepts {accept} {s : State} {b rest} (h : s.rxq = b :: rest) (hr : ReadSucceeds s)
    (ha : accept b = true) :
    fieldStep accept s = .next (acceptField b { s with readScript := s.readScript.tail, rxq := rest }) := by
  rw [fieldStep, readThen_ok (by simp [h]) hr]; simp [h, ha]

theorem fieldStep_rejects {accept} {s : State} {b rest} (h : s.rxq = b :: rest) (hr : ReadSucceeds s)
    (ha : accept b = false) :
    fieldStep accept s = .next (reject { s with readScript := s.readScript.tail, rxq := rest }) := by
  rw [fieldStep, readThen_ok (by simp [h]) hr]; simp [h, ha]

theorem readThen_congr {n} {s : State} {k k' : List Byte → State → Result}
    (h : ∀ t, k (s.rxq.take n) t = k' (s.rxq.take n) t) : readThen n s k = readThen n s k' := by
  obtain ⟨_, e⟩ | ⟨h1, h2, e⟩ | ⟨h1, h2, e⟩ := readThen_cases n s k
  · rw [e, readThen_short ‹_›]
  · rw [e, readThen_fails h1 h2]
  · rw [e, readThen_ok h1 h2, h]

theorem takeHeader_eq {accept} {s : State} {b rest} (h : s.rxq = b :: rest) (ha : accept b = true) :
    takeHeader s = fieldStep accept s := by
  apply readThen_congr; intro t; simp [h, ha]

theorem reject_eq {accept} {s : State} {b rest} (h : s.rxq = b :: rest) (ha : accept b = false) :
    readThen 1 s (fun _ t => .next (reject t)) = fieldStep accept s := by
  apply readThen_congr; intro t; simp [h, ha]

theorem microStep_awaitStart {s : State} (hp : s.pos = .awaitStart) :
    microStep s = fieldStep (· == startMarker) s := by
  have hf : inFlight s = .ok (decode s.cfg s.rxq) := by simp [inFlight, hp]
  rw [microStep_of_inFlight hf, hp]
  cases hq : s.rxq with
  | nil => rw [fieldStep_nil hq]; rfl
  | cons b rest =>
    rw [endsAt_decode]
    cases hb : b == startMarker with
    | true =>
      rw [if_pos rfl, if_neg (endsAt_decodeAddress_ne _ _), takeHeader_eq (accept := (· == startMarker)) hq hb]
    | false =>
      rw [if_neg Bool.false_ne_true, if_pos rfl]
      simp only [runHere, decode, hb]
      exact reject_eq (accept := (· == startMarker)) hq hb

theorem microStep_awaitAddress {s : State} (hp : s.pos = .awaitAddress) :
    microStep s = fieldStep (acceptsAddress s.cfg) s := by
  have hf : inFlight s = .ok (decodeAddress s.cfg s.rxq) := by simp [inFlight, hp]
  rw [microStep_of_inFlight hf, hp]
  cases hq : s.rxq with
  | nil => rw [fieldStep_nil hq]; rfl
  | cons b rest =>
    rw [endsAt_decodeAddress]
    cases hb : acceptsAddress s.cfg b with
    | true => rw [if_pos rfl, if_neg (endsAt_decodeSubAddress_ne ..).1, takeHeader_eq hq hb]
    | false =>
      rw [if_neg Bool.false_ne_true, if_pos rfl]
      simp only [runHere, decodeAddress, hb]
      exact reject_eq hq hb

theorem microStep_awaitSubAddress {s : State} {a} (hp : s.pos = .awaitSubAddress) (ha : s.sb.slot 1 = some a) :
    microStep s = fieldStep (validSub s.cfg) s := by
  have hf : inFlight s = .ok (decodeSubAddress s.cfg a s.rxq) := by
    simp [inFlight, hp, readSlot_ok (bodyIn := false) (slot := addressSlot) (s := s) (by simp [committed, hp]) ha]
  rw [microStep_of_inFlight hf, hp]
  cases hq : s.rxq with
  | nil => rw [fieldStep_nil hq]; rfl
  | cons b rest =>
    rw [endsAt_decodeSubAddress]
    cases hb : validSub s.cfg b with
    | true => rw [if_pos rfl, if_neg (by split <;> exact nofun), takeHeader_eq hq hb]
    | false =>
      rw [if_neg Bool.false_ne_true, if_pos rfl]
      simp only [runHere, decodeSubAddress, hb]
      exact reject_eq hq hb

theorem microStep_awaitSize {s : State} {a b} (hp : s.pos = .awaitSize) (ha : s.sb.slot 1 = some a)
    (hb : s.sb.slot 2 = some b) : microStep s = fieldStep (fun _ => true) s := by
  have hf : inFlight s = .ok (decodeSize s.cfg a b s.rxq) := by
    simp [inFlight, hp, readSlot_ok (bodyIn := false) (slot := addressSlot) (s := s) (by simp [committed, hp]) ha,
      readSlot_ok (bodyIn := false) (slot := subAddressSlot) (s := s) (by simp [committed, hp]) hb]
  rw [microStep_of_inFlight hf, hp, endsAt_decodeSize]
  cases hq : s.rxq with
  | nil => rw [fieldStep_nil hq]; rfl
  | cons n rest => simpa using takeHeader_eq (accept := fun _ => true) hq rfl

theorem inFlight_awaitBody {s : State} {a b n} (hp : s.pos = .awaitBody) (ha : s.sb.slot 1 = some a)
    (hb : s.sb.slot 2 = some b) (hn : declaredSize s = n) : inFlight s = .ok (decodeBody s.cfg a b n s.rxq) := by
  simp [inFlight, hp, readSlot_ok (bodyIn := false) (slot := addressSlot) (s := s) (by simp [committed, hp]) ha,
      readSlot_ok (bodyIn := false) (slot := subAddressSlot) (s := s) (by simp [committed, hp]) hb, readSize_ok hp, hn]

/-- Everything a micro-step at AwaitBody can do. -/
theorem microStep_awaitBody {s : State} {a b n} (hp : s.pos = .awaitBody) (ha : s.sb.slot 1 = some a)
    (hb : s.sb.slot 2 = some b) (hn : declaredSize s = n) :
    (oversize s.cfg n = true ∧ microStep s = .next (reject s)) ∨
    (oversize s.cfg n = false ∧ s.rxq.length < n.toNat ∧ microStep s = .next (noProgress s)) ∨
    (oversize s.cfg n = false ∧ n.toNat ≤ s.rxq.length ∧ ¬ ReadSucceeds s ∧
      microStep s = .next (noProgress { s with readScript := s.readScript.tail })) ∨
    (oversize s.cfg n = false ∧ n.toNat ≤ s.rxq.length ∧ ReadSucceeds s ∧
      microStep s = .next (frameDone (dispatchOf s.cfg (classify s.cfg a b (s.rxq.take n.toNat)) { s with
        readScript := s.readScript.tail, rxq := s.rxq.drop n.toNat,
        sb := s.sb.putAll 4 (s.rxq.take n.toNat) }))) := by
  rw [microStep_of_inFlight (inFlight_awaitBody hp ha hb hn), endsAt_decodeBody, if_pos hp.symm]
  obtain ⟨h, e⟩ | ⟨h, hl, e⟩ | ⟨h, hl, e⟩ := decodeBody_cases s.cfg a b n s.rxq <;> rw [e]
  · exact .inl ⟨h, rfl⟩
  · exact .inr (.inl ⟨h, hl, rfl⟩)
  · have hlen : (s.rxq.take n.toNat).length = n.toNat := by simp [hl]
    have hcap : n.toNat ≤ bodyCap s.cfg := by simpa [oversize] using h
    simp only [runHere, exec_classify]
    obtain ⟨h', -⟩ | ⟨-, hr, e'⟩ | ⟨-, -, h', -⟩ | ⟨-, hr, -, e'⟩ := completeFrame_cases (s.rxq.take n.toNat)
      (dispatchOf s.cfg (classify s.cfg a b (s.rxq.take n.toNat))) s
    · omega
    · exact .inr (.inr (.inl ⟨h, hl, hr, e'⟩))
    · omega
    · exact .inr (.inr (.inr ⟨h, hl, hr, by rw [e', hlen]⟩))

theorem step_block {s : State} (h : BlockMoves s) : step s = microStep s := by
  simp [step, stepTurn, h.legal, h.turn, blockTurn, h.running]

/-- The test a header position makes on its byte (R67 to R70). -/
def fieldTest (s : State) (b : Byte) : Bool :=
  match s.pos with
  | .awaitStart => b == startMarker
  | .awaitAddress => acceptsAddress s.cfg b
  | .awaitSubAddress => validSub s.cfg b
  | .awaitSize => true
  | .awaitBody => false

/-- The state after a successful read of the first `n` bytes. -/
def afterRead (n : Nat) (s : State) : State :=
  { s with readScript := s.readScript.tail, rxq := s.rxq.drop n }

/-- Everything a micro-step that answers a next state can have done. -/
inductive MicroMove (s t : State) : Prop where
  /-- Too few bytes. -/
  | waits (quiet : ValidatedPrefix s → Quiescent s) (after : t = noProgress s)
  /-- The read failed. -/
  | failed (fails : ¬ ReadSucceeds s) (after : t = noProgress { s with readScript := s.readScript.tail })
  /-- A header byte was accepted. -/
  | accepted (b : Byte) (rest : List Byte) (reads : ReadSucceeds s) (bytes : s.rxq = b :: rest)
      (header : s.pos ≠ .awaitBody) (test : fieldTest s b = true) (after : t = acceptField b (afterRead 1 s))
  /-- A header byte was rejected. -/
  | rejected (b : Byte) (rest : List Byte) (reads : ReadSucceeds s) (bytes : s.rxq = b :: rest)
      (header : s.pos ≠ .awaitBody) (test : fieldTest s b = false) (after : t = reject (afterRead 1 s))
  /-- The oversize guard. -/
  | guarded (n : Byte) (body : s.pos = .awaitBody) (size : declaredSize s = n) (tooBig : oversize s.cfg n = true)
      (after : t = reject s)
  /-- A frame was completed. -/
  | framed (a b n : Byte) (reads : ReadSucceeds s) (body : s.pos = .awaitBody) (address : s.sb.slot 1 = some a)
      (subAddress : s.sb.slot 2 = some b) (size : declaredSize s = n) (fits : n.toNat ≤ bodyCap s.cfg)
      (bytes : n.toNat ≤ s.rxq.length)
      (after : t = frameDone (dispatchOf s.cfg (classify s.cfg a b (s.rxq.take n.toNat))
        { afterRead n.toNat s with sb := s.sb.putAll 4 (s.rxq.take n.toNat) }))

theorem fieldStep_move {s : State} (hp : s.pos ≠ .awaitBody) :
    ∃ t, fieldStep (fieldTest s) s = .next t ∧ MicroMove s t := by
  cases hq : s.rxq with
  | nil => exact ⟨_, fieldStep_nil hq, .waits (fun _ => .inl ⟨hq, hp⟩) rfl⟩
  | cons b rest =>
    by_cases hr : ReadSucceeds s
    · cases hb : fieldTest s b with
      | true => exact ⟨_, fieldStep_accepts hq hr hb, .accepted b rest hr hq hp hb (by simp [afterRead, hq])⟩
      | false => exact ⟨_, fieldStep_rejects hq hr hb, .rejected b rest hr hq hp hb (by simp [afterRead, hq])⟩
    · exact ⟨_, fieldStep_fails (by simp [hq]) hr, .failed hr rfl⟩

theorem microStep_field {s : State} (hv : ValidatedPrefix s) (hp : s.pos ≠ .awaitBody) :
    microStep s = fieldStep (fieldTest s) s := by
  cases h : s.pos with
  | awaitStart => rw [microStep_awaitStart h]; simp only [fieldTest, h, fieldStep]
  | awaitAddress => rw [microStep_awaitAddress h]; simp only [fieldTest, h, fieldStep]
  | awaitSubAddress =>
    obtain ⟨a, ha, -⟩ := hv.address (by simp [h])
    rw [microStep_awaitSubAddress h ha]; simp only [fieldTest, h, fieldStep]
  | awaitSize =>
    obtain ⟨a, ha, -⟩ := hv.address (by simp [h])
    obtain ⟨b, hb, -⟩ := hv.subAddress (by simp [h])
    rw [microStep_awaitSize h ha hb]; simp only [fieldTest, h, fieldStep]
  | awaitBody => exact absurd h hp

theorem microStep_body_move {s : State} {a b n} (hp : s.pos = .awaitBody) (ha : s.sb.slot 1 = some a)
    (hb : s.sb.slot 2 = some b) (hn : declaredSize s = n) : ∃ t, microStep s = .next t ∧ MicroMove s t := by
  obtain ⟨ho, e⟩ | ⟨ho, hl, e⟩ | ⟨ho, hl, hr, e⟩ | ⟨ho, hl, hr, e⟩ := microStep_awaitBody hp ha hb hn
  · exact ⟨_, e, .guarded n hp hn ho rfl⟩
  · have hc : n.toNat ≤ bodyCap s.cfg := by simpa [oversize] using ho
    refine ⟨_, e, .waits (fun hv => ?_) rfl⟩
    obtain ⟨m, hm⟩ := hv.size hp
    obtain rfl : m = n := (declaredSize_some hm).symm.trans hn
    exact .inr ⟨hp, m, hm, hc, by omega, hl⟩
  · exact ⟨_, e, .failed hr rfl⟩
  · have hc : n.toNat ≤ bodyCap s.cfg := by simpa [oversize] using ho
    exact ⟨_, e, .framed a b n hr hp ha hb hn hc hl rfl⟩

/-- In a state with its prefix validated, a micro-step answers a next state, by one of the moves. -/
theorem microStep_moves {s : State} (hv : ValidatedPrefix s) : ∃ t, microStep s = .next t ∧ MicroMove s t := by
  by_cases hp : s.pos = .awaitBody
  · obtain ⟨a, ha, -⟩ := hv.address (by simp [hp])
    obtain ⟨b, hb, -⟩ := hv.subAddress (by simp [hp])
    exact microStep_body_move hp ha hb rfl
  · rw [microStep_field hv hp]
    exact fieldStep_move hp

/-- A micro-step that answers a next state has read the header slots it needed. -/
theorem microStep_next {s t : State} (h : microStep s = .next t) : MicroMove s t := by
  have move : ∀ {r : Result}, (∃ u, r = .next u ∧ MicroMove s u) → r = .next t → MicroMove s t := by
    rintro r ⟨u, rfl, hu⟩ ⟨⟩; exact hu
  cases hp : s.pos with
  | awaitStart =>
    refine move (r := microStep s) ?_ h
    rw [microStep_awaitStart hp]
    have := fieldStep_move (s := s) (by simp [hp])
    simpa only [fieldTest, hp, fieldStep] using this
  | awaitAddress =>
    refine move (r := microStep s) ?_ h
    rw [microStep_awaitAddress hp]
    have := fieldStep_move (s := s) (by simp [hp])
    simpa only [fieldTest, hp, fieldStep] using this
  | awaitSubAddress =>
    cases ha : s.sb.slot 1 with
    | none => simp [microStep, inFlight, hp, readSlot, committed, ha, addressSlot] at h
    | some a =>
      refine move (r := microStep s) ?_ h
      rw [microStep_awaitSubAddress hp ha]
      have := fieldStep_move (s := s) (by simp [hp])
      simpa only [fieldTest, hp, fieldStep] using this
  | awaitSize =>
    cases ha : s.sb.slot 1 with
    | none => simp [microStep, inFlight, hp, readSlot, committed, ha, addressSlot] at h
    | some a =>
      cases hb : s.sb.slot 2 with
      | none => simp [microStep, inFlight, hp, readSlot, committed, ha, hb, addressSlot, subAddressSlot] at h
      | some b =>
        refine move (r := microStep s) ?_ h
        rw [microStep_awaitSize hp ha hb]
        have := fieldStep_move (s := s) (by simp [hp])
        simpa only [fieldTest, hp, fieldStep] using this
  | awaitBody =>
    cases ha : s.sb.slot 1 with
    | none => simp [microStep, inFlight, hp, readSlot, committed, ha, addressSlot] at h
    | some a =>
      cases hb : s.sb.slot 2 with
      | none => simp [microStep, inFlight, hp, readSlot, committed, ha, hb, addressSlot, subAddressSlot] at h
      | some b => exact move (microStep_body_move hp ha hb rfl) h

/-- Everything a step that answers a next state can have done. -/
inductive StepMove (s t : State) : Prop where
  | micro (turn : s.turns = []) (running : s.draining = true) (move : MicroMove s t)
  | idle (turn : s.turns = []) (stopped : s.draining = false) (after : t = s)
  | microTurn (rest : List Turn) (turn : s.turns = .block :: rest) (running : s.draining = true)
      (move : MicroMove { s with turns := rest } t)
  | idleTurn (rest : List Turn) (turn : s.turns = .block :: rest) (stopped : s.draining = false)
      (after : t = { s with turns := rest })
  | arrival (b : Byte) (rest : List Turn) (turn : s.turns = .sender b :: rest)
      (after : t = arrive b { s with turns := rest })
  | called (rest : List Turn) (turn : s.turns = .hostDrain :: rest) (stopped : s.draining = false)
      (after : t = { s with turns := rest, draining := true })
  | reset (rest : List Turn) (turn : s.turns = .hostReset :: rest) (after : t = applyReset { s with turns := rest })

theorem step_next {s t : State} (h : step s = .next t) : s.cfg.wf = true ∧ StepMove s t := by
  unfold step stepTurn at h
  split at h
  case isFalse => exact nomatch h
  case isTrue hl =>
  refine ⟨hl, ?_⟩
  cases ht : s.turns with
  | nil =>
    rw [ht] at h
    simp only [blockTurn] at h
    split at h
    · next hd => exact .micro ht hd (microStep_next h)
    · next hd => cases h; exact .idle ht (by simpa using hd) rfl
  | cons turn rest =>
    rw [ht] at h
    simp only at h
    cases turn with
    | block =>
      simp only [takeTurn, blockTurn] at h
      split at h
      · next hd => exact .microTurn rest ht hd (microStep_next h)
      · next hd => cases h; exact .idleTurn rest ht (by simpa using hd) rfl
    | sender b => cases h; exact .arrival b rest ht rfl
    | hostDrain =>
      simp only [takeTurn, callDrain] at h
      split at h
      · exact nomatch h
      · next hd => cases h; exact .called rest ht (by simpa using hd) rfl
    | hostReset => cases h; exact .reset rest ht rfl
    | hostConfigure c => exact nomatch h

end Sys2Proof.Machine
end

