-- ==== Sys2Proof/Laws/Runs.lean ====
section
/-! SUPPORT. What an execution can answer, the fields the shared updates leave alone, and how runs are cut and joined. -/

namespace Sys2Proof.Machine

open Sys2Proof

/-! ### Runs -/

theorem run_succ {k : Nat} {s t : State} (h : step s = .next t) : core.run (k + 1) s = core.run k t := by
  have h' : core.step s = .next t := h
  simp only [Host.Core.run, h']

theorem run_succ_inv {k : Nat} {s t : State} (h : core.run (k + 1) s = .next t) :
    ∃ u, step s = .next u ∧ core.run k u = .next t := by
  cases hs : step s with
  | next u => exact ⟨u, rfl, (run_succ hs).symm.trans h⟩
  | fault f =>
    have h' : core.step s = .fault f := hs
    simp only [Host.Core.run, h'] at h
    exact nomatch h
  | refused f =>
    have h' : core.step s = .refused f := hs
    simp only [Host.Core.run, h'] at h
    exact nomatch h

theorem run_add {j k : Nat} {s t : State} (h : core.run j s = .next t) : core.run (j + k) s = core.run k t := by
  induction j generalizing s with
  | zero => cases h; simp
  | succ j ih =>
    obtain ⟨u, hs, hr⟩ := run_succ_inv h
    rw [show j + 1 + k = (j + k) + 1 by omega, run_succ hs]
    exact ih hr

/-! ### Fields -/

/-- An accepted header byte touches the Parser State only. -/
theorem acceptField_fields (b : Byte) (s : State) :
    (acceptField b s).cfg = s.cfg ∧ (acceptField b s).rxq = s.rxq ∧ (acceptField b s).txq = s.txq ∧
    (acceptField b s).evt = s.evt ∧ (acceptField b s).draining = s.draining ∧
    (acceptField b s).readScript = s.readScript ∧ (acceptField b s).turns = s.turns := by
  unfold acceptField; split <;> simp

/-- The dispatch of a class appends its events, their bytes, and does nothing else. -/
theorem dispatchOf_shape (c : Config) (i : Instr) (s : State) :
    ∃ es : List Event,
      dispatchOf c i s = { s with txq := s.txq ++ es.flatMap Event.sinkBytes, evt := s.evt ++ es } ∧
      (i.received = true → es = outputs c i) := by
  cases i
  case sysPing => exact ⟨[_], by simp [dispatchOf, txWrite, Event.sinkBytes], fun _ => rfl⟩
  case sysMsg => exact ⟨[_], by simp [dispatchOf, sysMessage, Event.sinkBytes], fun _ => rfl⟩
  case devMsg => exact ⟨[_], by simp [dispatchOf, devMessage, Event.sinkBytes], fun _ => rfl⟩
  all_goals exact ⟨[], by simp [dispatchOf], by simp [outputs, Instr.received]⟩

/-- The guard with `bodyCap` is the rule's guard with `MAX_BODY`, a size byte being at most 255 (00_scope.md R5). -/
theorem oversize_iff (c : Config) (n : Byte) : oversize c n = true ↔ c.maxBody < n.toNat := by
  have := n.isLt
  simp [oversize, bodyCap]; omega

/-! ### What an execution can answer -/

theorem completeFrame_ok {s : State} {body : List Byte} {d : State → State} (hr : ReadSucceeds s)
    (hl : body.length ≤ s.rxq.length) (hc : body.length ≤ bodyCap s.cfg) :
    completeFrame body d s = .next (frameDone (d { afterRead body.length s with
      sb := s.sb.putAll 4 (s.rxq.take body.length) })) := by
  obtain ⟨h', -⟩ | ⟨-, hr', -⟩ | ⟨-, -, h', -⟩ | ⟨-, -, -, e⟩ := completeFrame_cases body d s
  · omega
  · exact absurd hr hr'
  · omega
  · exact e

/-- Everything the execution of a received instruction can have done. -/
theorem exec_next {i : Instr} {s t : State} (hi : i.received = true) (h : exec i s = .next t) :
    t = noProgress s ∨ t = noProgress { s with readScript := s.readScript.tail } ∨
    (completesAt i ≠ .awaitBody ∧ s.rxq ≠ [] ∧ t = reject (afterRead 1 s)) ∨
    ((∃ addr sub n, i = .rejSize addr sub n) ∧ t = reject s) ∨
    (completesAt i = .awaitBody ∧ (∀ addr sub n, i ≠ .rejSize addr sub n) ∧ i.body.length ≤ s.rxq.length ∧
      t = frameDone (dispatchOf s.cfg i { afterRead i.body.length s with
        sb := s.sb.putAll 4 (s.rxq.take i.body.length) })) := by
  have rd : ∀ {u}, readThen 1 s (fun _ t => .next (reject t)) = .next u →
      u = noProgress s ∨ u = noProgress { s with readScript := s.readScript.tail } ∨
      (s.rxq ≠ [] ∧ u = reject (afterRead 1 s)) := by
    intro u hu
    obtain ⟨_, e⟩ | ⟨_, _, e⟩ | ⟨hl, _, e⟩ := readThen_cases 1 s (fun _ t => .next (reject t)) <;>
      rw [e] at hu <;> cases hu
    · exact .inl rfl
    · exact .inr (.inl rfl)
    · exact .inr (.inr ⟨by rintro h; simp [h] at hl, rfl⟩)
  have cp : ∀ {body d u}, completeFrame body d s = .next u →
      u = noProgress s ∨ u = noProgress { s with readScript := s.readScript.tail } ∨
      (body.length ≤ s.rxq.length ∧
        u = frameDone (d { afterRead body.length s with sb := s.sb.putAll 4 (s.rxq.take body.length) })) := by
    intro body d u hu
    obtain ⟨_, e⟩ | ⟨_, _, e⟩ | ⟨hl, _, _, e⟩ | ⟨hl, _, _, e⟩ := completeFrame_cases body d s <;>
      rw [e] at hu <;> cases hu
    · exact .inl rfl
    · exact .inr (.inl rfl)
    · exact .inr (.inr ⟨hl, rfl⟩)
  cases i with
  | pong => simp [Instr.received] at hi
  | rejSize a b n => cases h; exact .inr (.inr (.inr (.inl ⟨⟨a, b, n, rfl⟩, rfl⟩)))
  | rejNoise x => obtain h | h | h := rd h; exacts [.inl h, .inr (.inl h), .inr (.inr (.inl ⟨nofun, h⟩))]
  | rejAddr x => obtain h | h | h := rd h; exacts [.inl h, .inr (.inl h), .inr (.inr (.inl ⟨nofun, h⟩))]
  | rejSub a x => obtain h | h | h := rd h; exacts [.inl h, .inr (.inl h), .inr (.inr (.inl ⟨nofun, h⟩))]
  | sysEmpty b =>
    obtain h | h | h := cp (body := []) (d := id) h
    exacts [.inl h, .inr (.inl h), .inr (.inr (.inr (.inr ⟨rfl, nofun, h⟩)))]
  | devEmpty a b =>
    obtain h | h | h := cp (body := []) (d := id) h
    exacts [.inl h, .inr (.inl h), .inr (.inr (.inr (.inr ⟨rfl, nofun, h⟩)))]
  | sysPing b c p =>
    obtain h | h | h := cp h
    exacts [.inl h, .inr (.inl h), .inr (.inr (.inr (.inr ⟨rfl, nofun, h⟩)))]
  | sysMsg b c p =>
    obtain h | h | h := cp h
    exacts [.inl h, .inr (.inl h), .inr (.inr (.inr (.inr ⟨rfl, nofun, h⟩)))]
  | devMsg a b c p =>
    obtain h | h | h := cp h
    exacts [.inl h, .inr (.inl h), .inr (.inr (.inr (.inr ⟨rfl, nofun, h⟩)))]

end Sys2Proof.Machine
end

