-- ==== Sys2Proof/Tests/Slice0.lean ====
section
/-! SUPPORT. Tests: ill-formed terms the checks refuse, words written out from the tables of 30_encoding.md, single steps
with the results of 95_test_vectors.md or of the rules' own examples, and for each statement of Certificates/Slice0 that
has premises a concrete case that meets them. -/

namespace Sys2Proof.Tests

open Sys2Proof Sys2Proof.Machine

/-- CFG_C of 95_test_vectors.md: as the default, with `MAX_BODY` 16. -/
def cfgC : Config := { Config.default with maxBody := 16 }

/-- A block inside a `drain` call: address 01 and sub-address 03 taken, declared size 2, these bytes in the source. -/
def busy (p : Pos) (rxq : List Byte) (fails : List Bool) : State where
  cfg := Config.default
  pos := p
  dbs := some 0x02#8
  sb := [(1, 0x01#8), (2, 0x03#8)]
  rxq := rxq
  txq := []
  evt := []
  draining := true
  readScript := fails
  turns := []

/-- The same between calls. -/
def calm (p : Pos) (rxq : List Byte) (turns : List Turn) : State :=
  { busy p rxq [] with draining := false, turns := turns }

/-- The next state, if there is one. -/
def nextOf : Result → Option State
  | .next t => some t
  | .fault _ | .refused _ => none

/-- The refusal, if there is one. -/
def refusalOf : Result → Option Refusal
  | .refused r => some r
  | .next _ | .fault _ => none

/-- The fault, if there is one. -/
def faultOf : Result → Option Fault
  | .fault f => some f
  | .next _ | .refused _ => none

/-- The instruction decoded, if there is one. -/
def read (c : Config) (bytes : List Byte) : Option (Instr × List Byte) :=
  match decode c bytes with
  | .ok x => some x
  | .error _ => none

/-! ### WellFormed: one ill-formed term for each check -/

theorem test_wf_config : Config.default.wf = true ∧ cfgC.wf = true := by decide
theorem test_wf_config_broadcast_address : ({ Config.default with deviceAddress := 0x00#8 } : Config).wf = false := by
  decide
theorem test_wf_config_max_body : ({ Config.default with maxBody := 256 } : Config).wf = false := by decide
theorem test_wf_config_empty_range : ({ Config.default with minDrive := 9#8, maxDrive := 2#8 } : Config).wf = true := by
  decide
theorem test_wf_sys_ping_sub : (Instr.sysPing 0x09#8 0x80#8 []).wf Config.default = false := by decide
theorem test_wf_sys_ping_command : (Instr.sysPing 0x00#8 0x82#8 []).wf Config.default = false := by decide
theorem test_wf_sys_ping_body : (Instr.sysPing 0x00#8 0x80#8 (List.replicate 16 0x00#8)).wf cfgC = false := by decide
theorem test_wf_sys_msg_sub : (Instr.sysMsg 0x09#8 0x82#8 []).wf Config.default = false := by decide
theorem test_wf_sys_msg_command : (Instr.sysMsg 0x00#8 0x80#8 []).wf Config.default = false := by decide
theorem test_wf_sys_msg_body : (Instr.sysMsg 0x00#8 0x82#8 (List.replicate 16 0x00#8)).wf cfgC = false := by decide
theorem test_wf_dev_msg_broadcast : (Instr.devMsg 0x00#8 0x03#8 0x09#8 []).wf Config.default = false := by decide
theorem test_wf_dev_msg_address : (Instr.devMsg 0x02#8 0x03#8 0x09#8 []).wf Config.default = false := by decide
theorem test_wf_dev_msg_sub : (Instr.devMsg 0x01#8 0x09#8 0x09#8 []).wf Config.default = false := by decide
theorem test_wf_dev_msg_body : (Instr.devMsg 0x01#8 0x03#8 0x09#8 (List.replicate 16 0x00#8)).wf cfgC = false := by decide
theorem test_wf_sys_empty_sub : (Instr.sysEmpty 0x09#8).wf Config.default = false := by decide
theorem test_wf_dev_empty_address : (Instr.devEmpty 0x02#8 0x03#8).wf Config.default = false := by decide
theorem test_wf_dev_empty_sub : (Instr.devEmpty 0x01#8 0x09#8).wf Config.default = false := by decide
theorem test_wf_rej_noise_marker : (Instr.rejNoise 0x4D#8).wf Config.default = false := by decide
theorem test_wf_rej_addr_accepted : (Instr.rejAddr 0x01#8).wf Config.default = false := by decide
theorem test_wf_rej_sub_address : (Instr.rejSub 0x02#8 0x09#8).wf Config.default = false := by decide
theorem test_wf_rej_sub_valid : (Instr.rejSub 0x01#8 0x08#8).wf Config.default = false := by decide
theorem test_wf_rej_size_address : (Instr.rejSize 0x02#8 0x01#8 0x11#8).wf cfgC = false := by decide
theorem test_wf_rej_size_sub : (Instr.rejSize 0x01#8 0x09#8 0x11#8).wf cfgC = false := by decide
theorem test_wf_rej_size_fits : (Instr.rejSize 0x01#8 0x01#8 0x10#8).wf cfgC = false := by decide
theorem test_wf_pong_opcode : (Instr.pong 0x80#8 0x01#8 0x01#8 0x08#8).wf Config.default = false := by decide
theorem test_wf_pong_address : (Instr.pong 0x81#8 0x02#8 0x01#8 0x08#8).wf Config.default = false := by decide
theorem test_wf_pong_low : (Instr.pong 0x81#8 0x01#8 0x02#8 0x08#8).wf Config.default = false := by decide
theorem test_wf_pong_high : (Instr.pong 0x81#8 0x01#8 0x01#8 0x09#8).wf Config.default = false := by decide

/-! ### Decode: each row's word, written out from the tables of R54, R55 and R56 -/

/-- R58's PING. -/
theorem test_decode_sys_ping :
    read Config.default [0x4D#8, 0x00#8, 0x00#8, 0x01#8, 0x80#8] = some (.sysPing 0x00#8 0x80#8 [], []) := by decide
/-- 41_dispatch.md R88's example; one more byte stays. -/
theorem test_decode_sys_msg :
    read Config.default [0x4D#8, 0x00#8, 0x00#8, 0x03#8, 0x82#8, 0x0A#8, 0x0B#8, 0x4D#8] =
      some (.sysMsg 0x00#8 0x82#8 [0x0A#8, 0x0B#8], [0x4D#8]) := by decide
/-- R58's frame, the source's own. -/
theorem test_decode_dev_msg :
    read Config.default [0x4D#8, 0x01#8, 0x03#8, 0x02#8, 0x09#8, 0x3C#8] =
      some (.devMsg 0x01#8 0x03#8 0x09#8 [0x3C#8], []) := by decide
theorem test_decode_sys_empty :
    read Config.default [0x4D#8, 0x00#8, 0x08#8, 0x00#8] = some (.sysEmpty 0x08#8, []) := by decide
/-- V10a. -/
theorem test_decode_dev_empty :
    read Config.default [0x4D#8, 0x01#8, 0x01#8, 0x00#8] = some (.devEmpty 0x01#8 0x01#8, []) := by decide
theorem test_decode_rej_noise : read Config.default [0x13#8, 0x4D#8] = some (.rejNoise 0x13#8, [0x4D#8]) := by decide
/-- 70_reset_and_hazards.md R127: the second marker is eaten as an address. -/
theorem test_decode_rej_addr :
    read Config.default [0x4D#8, 0x4D#8, 0x01#8] = some (.rejAddr 0x4D#8, [0x01#8]) := by decide
/-- The example of 40_framer.md R69: 09 under CFG_A. -/
theorem test_decode_rej_sub :
    read Config.default [0x4D#8, 0x01#8, 0x09#8, 0x01#8] = some (.rejSub 0x01#8 0x09#8, [0x01#8]) := by decide
/-- The example of R72: size 0x11 with `MAX_BODY` 16; nothing after the size byte is taken. -/
theorem test_decode_rej_size :
    read cfgC [0x4D#8, 0x01#8, 0x01#8, 0x11#8, 0x00#8] = some (.rejSize 0x01#8 0x01#8 0x11#8, [0x00#8]) := by decide
/-- The reply of R87's example, as the transmit side writes it. -/
theorem test_decode_pong :
    decodeTx [0x4D#8, 0x00#8, 0x00#8, 0x04#8, 0x81#8, 0x01#8, 0x01#8, 0x08#8] =
      some (.pong 0x81#8 0x01#8 0x01#8 0x08#8, []) := by decide
/-- V17: the same bytes received. -/
theorem test_decode_received_pong :
    read Config.default [0x4D#8, 0x00#8, 0x00#8, 0x04#8, 0x81#8, 0x02#8, 0x01#8, 0x04#8] =
      some (.sysMsg 0x00#8 0x81#8 [0x02#8, 0x01#8, 0x04#8], []) := by decide
theorem test_encode_pong :
    encode (.pong 0x81#8 0x01#8 0x01#8 0x08#8) =
      [0x4D#8, 0x00#8, 0x00#8, 0x04#8, 0x81#8, 0x01#8, 0x01#8, 0x08#8] := by decide
/-- A row's bits, byte 0 of the wire at the top (R58's frame). -/
theorem test_table_word_bytes : bytesOfNumber 6 0x4D010302093C = [0x4D#8, 0x01#8, 0x03#8, 0x02#8, 0x09#8, 0x3C#8] := by
  decide
theorem test_table_word_dev_msg : decodeTableWord 48 0x4D010302093C = some (.devMsg 0x01#8 0x03#8 0x09#8 [0x3C#8]) := by
  decide +kernel
theorem test_table_word_sys_ping : decodeTableWord 40 0x4D00000180 = some (.sysPing 0x00#8 0x80#8 []) := by
  decide +kernel
/-- 93_implementation_defined.md U11: codes 5 to 7 name no position. -/
theorem test_pos_codes :
    Pos.ofCode 0#3 = some .awaitStart ∧ Pos.ofCode 4#3 = some .awaitBody ∧ Pos.ofCode 5#3 = none ∧
    Pos.ofCode 7#3 = none := by decide

/-! ### Single steps -/

theorem test_reset_memory : State.reset.sb.wf = true ∧ State.reset.sb.slot 4 = none := by decide
/-- R67's example: 13, then 4D. -/
theorem test_step_rej_noise :
    nextOf (step (busy .awaitStart [0x13#8, 0x4D#8] [])) = some (busy .awaitStart [0x4D#8] []) := by decide
theorem test_step_marker : nextOf (step (busy .awaitStart [0x4D#8] [])) = some (busy .awaitAddress [] []) := by decide
/-- R68's example: 02 rejected, nothing stored. -/
theorem test_step_rej_addr :
    nextOf (step (busy .awaitAddress [0x02#8] [])) = some (busy .awaitStart [] []) := by decide
/-- R68's example: 00 accepted and stored in slot 1. -/
theorem test_step_address :
    (nextOf (step (busy .awaitAddress [0x00#8] []))).map (fun t => (t.pos, t.sb.slot 1)) =
      some (.awaitSubAddress, some 0x00#8) := by decide
/-- R69's example: 09 rejected, 08 accepted. -/
theorem test_step_rej_sub :
    nextOf (step (busy .awaitSubAddress [0x09#8] [])) = some (busy .awaitStart [] []) := by decide
theorem test_step_sub_address :
    (nextOf (step (busy .awaitSubAddress [0x08#8] []))).map (fun t => (t.pos, t.sb.slot 2)) =
      some (.awaitSize, some 0x08#8) := by decide
/-- R70's example: the size goes to DBS, slot 3 is not written. -/
theorem test_step_size :
    (nextOf (step (busy .awaitSize [0xFF#8, 0x3C#8] []))).map (fun t => (t.pos, t.dbs, t.rxq, t.sb.slot 3)) =
      some (.awaitBody, some 0xFF#8, [0x3C#8], none) := by decide
/-- R71's example: with one byte of two, nothing is taken. -/
theorem test_step_waits : (nextOf (step (busy .awaitBody [0x09#8] []))).map (fun t => (t.pos, t.rxq, t.draining)) =
    some (.awaitBody, [0x09#8], false) := by decide
/-- R71's example, whole. -/
theorem test_step_dev_msg :
    (nextOf (step (busy .awaitBody [0x09#8, 0x3C#8] []))).map (fun t => (t.pos, t.rxq, t.sb.slot 5, t.evt)) =
      some (.awaitStart, [], some 0x3C#8, [.dev 0x03#8 0x09#8 [0x3C#8]]) := by decide
/-- 41_dispatch.md R97: the ping opcode to this device's address is forwarded. -/
theorem test_step_dev_ping_opcode :
    (nextOf (step (busy .awaitBody [0x80#8, 0x00#8] []))).map (fun t => (t.txq, t.evt)) =
      some ([], [.dev 0x03#8 0x80#8 [0x00#8]]) := by decide
/-- R87: a Ping with a payload; the last body byte is not looked at. -/
theorem test_step_sys_ping :
    (nextOf (step { busy .awaitBody [0x80#8, 0x55#8] [] with sb := [(1, 0x00#8), (2, 0x03#8)] })).map
      (fun t => (t.txq, t.evt.length, t.pos)) =
      some ([0x4D#8, 0x00#8, 0x00#8, 0x04#8, 0x81#8, 0x01#8, 0x01#8, 0x08#8], 1, .awaitStart) := by decide
/-- R88 and R97: the ping opcode in the payload only. -/
theorem test_step_sys_msg :
    (nextOf (step { busy .awaitBody [0x81#8, 0x80#8] [] with sb := [(1, 0x00#8), (2, 0x03#8)] })).map
      (fun t => (t.txq, t.evt)) = some ([], [.sys 0x81#8 [0x80#8]]) := by decide
/-- R86: a stale 80 in slot 4 makes no Pong. -/
theorem test_step_sys_empty :
    (nextOf (step { busy .awaitBody [0x4D#8] [] with
      dbs := some 0x00#8, sb := [(1, 0x00#8), (2, 0x03#8), (4, 0x80#8)] })).map (fun t => (t.pos, t.rxq, t.evt)) =
      some (.awaitStart, [0x4D#8], []) := by decide
theorem test_step_dev_empty :
    (nextOf (step { busy .awaitBody [] [] with dbs := some 0x00#8 })).map (fun t => (t.pos, t.evt)) =
      some (.awaitStart, []) := by decide
/-- R72's example. -/
theorem test_step_rej_size :
    (nextOf (step { busy .awaitBody [0x4D#8] [] with cfg := cfgC, dbs := some 0x11#8 })).map
      (fun t => (t.pos, t.rxq, t.dbs)) = some (.awaitStart, [0x4D#8], some 0x11#8) := by decide
/-- R81: a size equal to `MAX_BODY` is not too big. -/
theorem test_step_size_limit :
    (nextOf (step { busy .awaitBody [0x4D#8] [] with cfg := cfgC, dbs := some 0x10#8 })).map State.pos =
      some .awaitBody := by decide
/-- V23's failing read. -/
theorem test_step_failed_read :
    nextOf (step (busy .awaitSubAddress [0x03#8, 0x02#8] [true])) =
      some { busy .awaitSubAddress [0x03#8, 0x02#8] [] with draining := false } := by decide
theorem test_exec_pong :
    (nextOf (exec (.pong 0x81#8 0x01#8 0x01#8 0x08#8) State.reset)).map (fun t => (t.txq.length, t.evt.length)) =
      some (8, 1) := by decide
/-- A placed instruction runs at the very next step (log 2). -/
theorem test_fetch_word_dev_msg :
    (nextOf (step (State.reset.withFetchWord 48 0x4D010302093C))).map State.evt =
      some [.dev 0x03#8 0x09#8 [0x3C#8]] := by decide +kernel
theorem test_fetch_word_rej_sub :
    (nextOf (step (State.reset.withFetchWord 24 0x4D0109))).map (fun t => (t.pos, t.rxq.length)) =
      some (.awaitStart, 256) := by decide +kernel
/-- A read of a slot with no value is the model's fault, not a zero (R116, U1). -/
theorem test_uncommitted_slot :
    faultOf (step { busy .awaitSubAddress [0x03#8] [] with sb := [] }) = some (.uncommittedSlot 1) := by decide
theorem test_store_past_the_end :
    faultOf (exec (.sysMsg 0x00#8 0x82#8 (List.replicate 16 0x00#8))
      { busy .awaitBody (List.replicate 17 0x00#8) [] with cfg := cfgC }) = some (.noSuchSlot 20) := by decide
/-- R27: the whole body at once, and no request before it is there or where the guard of R72 applies. -/
theorem test_ports_pop :
    rxPop (busy .awaitBody [0x09#8, 0x3C#8, 0x4D#8] []) = some 2#9 ∧
    rxData (busy .awaitBody [0x09#8, 0x3C#8, 0x4D#8] []) = some [0x09#8, 0x3C#8] ∧
    rxPop (busy .awaitBody [0x09#8] []) = none ∧
    rxPop { busy .awaitBody [0x09#8, 0x3C#8] [] with cfg := { Config.default with maxBody := 1 } } = none := by decide
/-- R28: the failing request returns nothing. -/
theorem test_ports_fail :
    rxFail (busy .awaitSize [0x02#8] [true]) = true ∧ rxData (busy .awaitSize [0x02#8] [true]) = none := by decide
/-- U1: the byte a longer earlier frame left in slot 6 is not committed when the body in flight has two bytes. -/
theorem test_stale_slot :
    readSlot true 5 { busy .awaitBody [] [] with sb := [(4, 0x09#8), (5, 0x3C#8), (6, 0x55#8)] } = .ok 0x3C#8 ∧
    readSlot true 6 { busy .awaitBody [] [] with sb := [(4, 0x09#8), (5, 0x3C#8), (6, 0x55#8)] } =
      .error (.uncommittedSlot 6) :=
  ⟨rfl, rfl⟩
/-- R116: `DBS` away from AwaitBody. -/
theorem test_uncommitted_size : readSize (busy .awaitSize [] []) = .error .uncommittedSize := rfl
/-- The pseudocode on R71's example. -/
theorem test_rule_step_dev_msg :
    (nextOf (ruleStep (busy .awaitBody [0x09#8, 0x3C#8] [])).result).map State.evt =
      some [.dev 0x03#8 0x09#8 [0x3C#8]] := by decide

/-! ### The premises of the statements can be met -/

theorem busy_moves (p : Pos) (rxq : List Byte) (fails : List Bool) : BlockMoves (busy p rxq fails) :=
  ⟨(by decide : Config.default.wf = true), rfl, rfl⟩

theorem busy_prefix (p : Pos) (rxq : List Byte) (fails : List Bool) : ValidatedPrefix (busy p rxq fails) :=
  ⟨fun _ => ⟨0x01#8, rfl, (by decide : acceptsAddress Config.default 0x01#8 = true)⟩,
    fun _ => ⟨0x03#8, rfl, (by decide : validSub Config.default 0x03#8 = true)⟩, fun _ => ⟨0x02#8, rfl⟩⟩

theorem calm_inv (p : Pos) (turns : List Turn) : Inv (calm p [] turns) where
  legal := (by decide : Config.default.wf = true)
  validated :=
    ⟨fun _ => ⟨0x01#8, rfl, (by decide : acceptsAddress Config.default 0x01#8 = true)⟩,
      fun _ => ⟨0x03#8, rfl, (by decide : validSub Config.default 0x03#8 = true)⟩, fun _ => ⟨0x02#8, rfl⟩⟩
  buffer := by
    refine ⟨by simp [calm, busy, Memory.wf], fun a b h => ?_⟩
    simp only [calm, busy, Memory.slot, unlisted] at h
    have : slotCount Config.default = 259 := by decide
    simp only [calm, busy, this]
    split at h
    · omega
    · split at h
      · omega
      · exact nomatch h
  history := ⟨rfl, by simp [calm, busy]⟩
  source := by simp [SourceBounded, calm, busy]

/-- DecodeInvertsEncode, at the longest payload and at the shortest. -/
theorem witness_DecodeInvertsEncode :
    (Instr.devMsg 0x01#8 0x08#8 0x80#8 (List.replicate 254 0x4D#8)).wf Config.default = true ∧
    (Instr.sysPing 0x00#8 0x80#8 []).wf Config.default = true ∧ (Instr.sysPing 0x00#8 0x80#8 []).received = true := by
  decide +kernel

theorem witness_DecodedInstructionIsWellFormed :
    read Config.default [0x4D#8, 0x01#8, 0x08#8, 0x00#8, 0x4D#8] = some (.devEmpty 0x01#8 0x08#8, [0x4D#8]) := by decide

/-- AcceptedFrameHasItsClass: the two addresses, both ends of the range, an empty body, a ping, another command. -/
theorem witness_AcceptedFrameHasItsClass :
    Config.default.wf = true ∧ acceptsAddress Config.default 0x00#8 = true ∧
    acceptsAddress Config.default Config.default.deviceAddress = true ∧ validSub Config.default 0x00#8 = true ∧
    validSub Config.default 0x01#8 = true ∧ validSub Config.default 0x08#8 = true ∧
    ([] : List Byte).length ≤ bodyCap Config.default ∧ [0x80#8].length ≤ bodyCap Config.default ∧
    (List.replicate 255 0x81#8).length ≤ bodyCap Config.default := by
  decide +kernel

theorem witness_DecodingStopsOnlyForBytes :
    read Config.default [] = none ∧ read Config.default [0x4D#8] = none ∧ read Config.default [0x4D#8, 0x00#8] = none ∧
    read Config.default [0x4D#8, 0x00#8, 0x00#8] = none ∧
    read Config.default [0x4D#8, 0x00#8, 0x00#8, 0x02#8, 0x80#8] = none := by decide

/-- ReceivedPongIsSystemMessage, at the smallest buffer that takes a Pong. -/
theorem witness_ReceivedPongIsSystemMessage :
    Config.default.pongOpcode ≠ Config.default.pingOpcode ∧ 4 ≤ bodyCap { Config.default with maxBody := 4 } := by decide

/-- SubAddressNeighbours: 00, both ends, and both neighbours at the boundary values of the premises. -/
theorem witness_SubAddressNeighbours :
    acceptsAddress Config.default 0x01#8 = true ∧
    (Config.default.minDrive.toNat ≤ (0x01#8).toNat ∧ (0x01#8).toNat ≤ Config.default.maxDrive.toNat) ∧
    (Config.default.minDrive.toNat ≤ (0x08#8).toNat ∧ (0x08#8).toNat ≤ Config.default.maxDrive.toNat) ∧
    2 ≤ ({ Config.default with minDrive := 2#8 } : Config).minDrive.toNat ∧
    ({ Config.default with maxDrive := 254#8 } : Config).maxDrive.toNat ≤ 254 := by decide

/-- The position rules: an empty source, a failing read, an accepted byte, a rejected byte. -/
theorem witness_AwaitStartScansForMarker :
    BlockMoves (busy .awaitStart [0x4D#8] []) ∧ (busy .awaitStart [] []).rxq = [] ∧
    ¬ ReadSucceeds (busy .awaitStart [0x4D#8] [true]) ∧ ReadSucceeds (busy .awaitStart [0x4D#8] []) ∧
    ReadSucceeds (busy .awaitStart [0x13#8] [false]) ∧ (0x13#8 : Byte) ≠ 0x4D#8 :=
  ⟨busy_moves .., rfl, by simp [ReadSucceeds, busy], rfl, rfl, by decide⟩

theorem witness_AwaitAddressDecodesTarget :
    BlockMoves (busy .awaitAddress [0x01#8] []) ∧ ¬ ReadSucceeds (busy .awaitAddress [0x01#8] [true]) ∧
    ReadSucceeds (busy .awaitAddress [0x01#8] []) ∧ 0x01#8 = Config.default.deviceAddress ∧
    ¬ (0x02#8 = (0x00#8 : Byte) ∨ 0x02#8 = Config.default.deviceAddress) :=
  ⟨busy_moves .., by simp [ReadSucceeds, busy], rfl, by decide, by decide⟩

theorem witness_AwaitSubAddressChecksRange :
    BlockMoves (busy .awaitSubAddress [0x08#8] []) ∧ ValidatedPrefix (busy .awaitSubAddress [0x08#8] []) ∧
    ¬ ReadSucceeds (busy .awaitSubAddress [0x08#8] [true]) ∧ ReadSucceeds (busy .awaitSubAddress [0x08#8] []) ∧
    (Config.default.minDrive.toNat ≤ (0x08#8).toNat ∧ (0x08#8).toNat ≤ Config.default.maxDrive.toNat) ∧
    ¬ (0x09#8 = (0x00#8 : Byte) ∨
      (Config.default.minDrive.toNat ≤ (0x09#8).toNat ∧ (0x09#8).toNat ≤ Config.default.maxDrive.toNat)) :=
  ⟨busy_moves .., busy_prefix .., by simp [ReadSucceeds, busy], rfl, by decide, by decide⟩

theorem witness_AwaitSizeLatchesAnySize :
    BlockMoves (busy .awaitSize [0xFF#8] []) ∧ ValidatedPrefix (busy .awaitSize [0xFF#8] []) ∧
    ReadSucceeds (busy .awaitSize [0xFF#8] []) ∧ ¬ ReadSucceeds (busy .awaitSize [0xFF#8] [true]) :=
  ⟨busy_moves .., busy_prefix .., rfl, by simp [ReadSucceeds, busy]⟩

theorem witness_AwaitBodyWaitsForWholeBody :
    BlockMoves (busy .awaitBody [0x09#8] []) ∧ ValidatedPrefix (busy .awaitBody [0x09#8] []) ∧
    (busy .awaitBody [0x09#8] []).dbs = some 0x02#8 ∧ (0x02#8).toNat ≤ Config.default.maxBody ∧
    (busy .awaitBody [0x09#8] []).rxq.length < (0x02#8).toNat ∧
    (0x02#8).toNat ≤ (busy .awaitBody [0x09#8, 0x3C#8] [true]).rxq.length ∧
    ¬ ReadSucceeds (busy .awaitBody [0x09#8, 0x3C#8] [true]) :=
  ⟨busy_moves .., busy_prefix .., rfl, by decide, by decide, by decide, by simp [ReadSucceeds, busy]⟩

/-- A size one above `MAX_BODY`. -/
def tooBig : State := { busy .awaitBody [] [] with cfg := { Config.default with maxBody := 1 } }

theorem witness_OversizeGuardResets :
    BlockMoves tooBig ∧ ValidatedPrefix tooBig ∧ tooBig.pos = .awaitBody ∧ tooBig.dbs = some 0x02#8 ∧
    tooBig.cfg.maxBody < (0x02#8).toNat :=
  ⟨⟨by decide, rfl, rfl⟩, ⟨fun _ => ⟨0x01#8, rfl, by decide⟩, fun _ => ⟨0x03#8, rfl, by decide⟩, fun _ => ⟨0x02#8, rfl⟩⟩,
    rfl, rfl, by decide⟩

/-- FailedReadLosesNothing: a failing read at a header position. -/
theorem witness_FailedReadLosesNothing :
    BlockMoves (busy .awaitSize [0x02#8] [true]) ∧ ValidatedPrefix (busy .awaitSize [0x02#8] [true]) ∧
    ¬ ReadSucceeds (busy .awaitSize [0x02#8] [true]) ∧
    step (busy .awaitSize [0x02#8] [true]) = .next { busy .awaitSize [0x02#8] [] with draining := false } :=
  ⟨busy_moves .., busy_prefix .., by simp [ReadSucceeds, busy], by rfl⟩

/-- The state in which a frame to `addr`, sub-address 03, is about to complete. -/
def ready (addr : Byte) (body rest : List Byte) : State :=
  { busy .awaitBody (body ++ rest) [] with
    dbs := some (BitVec.ofNat 8 body.length), sb := [(1, addr), (2, 0x03#8)] }

theorem ready_body (addr : Byte) (body rest : List Byte) (h : body.length ≤ bodyCap Config.default) :
    BodyReady (ready addr body rest) addr 0x03#8 body rest :=
  ⟨⟨(by decide : Config.default.wf = true), rfl, rfl⟩, rfl, rfl, rfl, rfl, rfl, h, rfl⟩

theorem witness_EmptyFrameDoesNothing : BodyReady (ready 0x00#8 [] [0x4D#8]) 0x00#8 0x03#8 [] [0x4D#8] :=
  ready_body _ _ _ (by decide)

theorem witness_BroadcastPingIsAnswered :
    BodyReady (ready 0x00#8 [0x80#8] []) 0x00#8 0x03#8 ((ready 0x00#8 [0x80#8] []).cfg.pingOpcode :: []) [] :=
  ready_body _ _ _ (by decide)

theorem witness_BroadcastMessageIsForwarded :
    BodyReady (ready 0x00#8 [0x81#8] []) 0x00#8 0x03#8 [0x81#8] [] ∧ 0x81#8 ≠ Config.default.pingOpcode :=
  ⟨ready_body _ _ _ (by decide), by decide⟩

theorem witness_DeviceMessageIsForwarded :
    BodyReady (ready 0x01#8 (List.replicate 255 0x80#8) []) 0x01#8 0x03#8 (0x80#8 :: List.replicate 254 0x80#8) [] ∧
    (0x01#8 : Byte) ≠ 0x00#8 :=
  ⟨ready_body _ _ _ (by decide +kernel), by decide⟩

/-- SystemFramesComplete and DeviceFramesComplete, at the longest payload. -/
theorem witness_FramesComplete :
    ReadSucceeds (busy .awaitBody (List.replicate 255 0x80#8) []) ∧
    (List.replicate 254 0x00#8).length + 1 ≤ (busy .awaitBody (List.replicate 255 0x80#8) []).rxq.length ∧
    (List.replicate 254 0x00#8).length + 1 ≤ bodyCap Config.default :=
  ⟨rfl, by decide +kernel, by decide +kernel⟩

theorem witness_RejectedInputsComplete :
    ReadSucceeds (busy .awaitStart [0x13#8] []) ∧ (busy .awaitStart [0x13#8] []).rxq ≠ [] :=
  ⟨rfl, by decide⟩

theorem witness_EndedCallChangesNothingElse :
    (Instr.devMsg 0x01#8 0x03#8 0x09#8 [0x3C#8]).received = true ∧
    exec (.devMsg 0x01#8 0x03#8 0x09#8 [0x3C#8]) (busy .awaitBody [0x09#8] []) =
      .next { busy .awaitBody [0x09#8] [] with draining := false } ∧
    ({ busy .awaitBody [0x09#8] [] with draining := false } : State).draining ≠ (busy .awaitBody [0x09#8] []).draining :=
  ⟨rfl, rfl, by decide⟩

theorem witness_FrameClassesTouchOnlyTheBody :
    (Instr.devEmpty 0x01#8 0x03#8).received = true ∧ completesAt (.devEmpty 0x01#8 0x03#8) = .awaitBody ∧
    exec (.devEmpty 0x01#8 0x03#8) (busy .awaitBody [] []) = .next (busy .awaitStart [] []) :=
  ⟨rfl, rfl, rfl⟩

theorem witness_RejectsTouchNoData :
    completesAt (.rejNoise 0x13#8) ≠ .awaitBody ∧
    exec (.rejNoise 0x13#8) (busy .awaitStart [0x13#8] []) = .next (busy .awaitStart [] []) ∧
    exec (.rejSize 0x01#8 0x03#8 0x02#8) (busy .awaitBody [] []) = .next (busy .awaitStart [] []) :=
  ⟨by decide, rfl, rfl⟩

/-- DeliveredPayloadIsTheBuffer, StaleBytesNeverLeak and the other statements about a block's step that answers. -/
theorem witness_DeliveredPayloadIsTheBuffer :
    BlockMoves (busy .awaitBody [0x09#8, 0x3C#8] []) ∧ ValidatedPrefix (busy .awaitBody [0x09#8, 0x3C#8] []) ∧
    (nextOf (step (busy .awaitBody [0x09#8, 0x3C#8] []))).map State.evt =
      some ((busy .awaitBody [0x09#8, 0x3C#8] []).evt ++ [.dev 0x03#8 0x09#8 [0x3C#8]]) :=
  ⟨busy_moves .., busy_prefix .., by decide⟩

/-- The other buffer differs in a stale slot 6 only. -/
theorem witness_StaleBytesNeverLeak :
    BlockMoves (busy .awaitBody [0x09#8, 0x3C#8] []) ∧
    Memory.slot [(1, 0x01#8), (2, 0x03#8), (6, 0x55#8)] 1 = (busy .awaitBody [0x09#8, 0x3C#8] []).sb.slot 1 ∧
    Memory.slot [(1, 0x01#8), (2, 0x03#8), (6, 0x55#8)] 2 = (busy .awaitBody [0x09#8, 0x3C#8] []).sb.slot 2 ∧
    (nextOf (step (busy .awaitBody [0x09#8, 0x3C#8] []))).isSome = true :=
  ⟨busy_moves .., rfl, rfl, by decide⟩

theorem witness_SystemFrameHidesSubAddress :
    BlockMoves (ready 0x00#8 [0x81#8] []) ∧ (ready 0x00#8 [0x81#8] []).pos = .awaitBody ∧
    (ready 0x00#8 [0x81#8] []).sb.slot 1 = some 0x00#8 ∧ (ready 0x00#8 [0x81#8] []).sb.slot 2 = some 0x03#8 ∧
    (nextOf (step (ready 0x00#8 [0x81#8] []))).isSome = true :=
  ⟨⟨by decide, rfl, rfl⟩, rfl, rfl, rfl, by decide⟩

theorem witness_StepRunsDecodedInstruction :
    BlockMoves (busy .awaitBody [0x09#8, 0x3C#8] []) ∧
    inFlight (busy .awaitBody [0x09#8, 0x3C#8] []) = .ok (.ok (.devMsg 0x01#8 0x03#8 0x09#8 [0x3C#8], [])) ∧
    completesAt (.devMsg 0x01#8 0x03#8 0x09#8 [0x3C#8]) = (busy .awaitBody [0x09#8, 0x3C#8] []).pos :=
  ⟨busy_moves .., by rfl, rfl⟩

theorem witness_HeaderStepKeepsInstruction :
    BlockMoves (busy .awaitSize [0x00#8] []) ∧ ReadSucceeds (busy .awaitSize [0x00#8] []) ∧
    inFlight (busy .awaitSize [0x00#8] []) = .ok (.ok (.devEmpty 0x01#8 0x03#8, [])) ∧
    completesAt (.devEmpty 0x01#8 0x03#8) ≠ (busy .awaitSize [0x00#8] []).pos :=
  ⟨busy_moves .., rfl, by rfl, by decide⟩

theorem witness_WholeInstructionRuns :
    BlockMoves (busy .awaitStart [0x4D#8, 0x01#8, 0x03#8, 0x00#8, 0x13#8] []) ∧
    read Config.default [0x4D#8, 0x01#8, 0x03#8, 0x00#8, 0x13#8] = some (.devEmpty 0x01#8 0x03#8, [0x13#8]) :=
  ⟨busy_moves .., by decide⟩

theorem witness_PingLaw :
    BlockMoves (busy .awaitStart (frame 0x00#8 0x08#8 [0x80#8] ++ [0x13#8]) []) ∧
    validSub Config.default 0x08#8 = true ∧ ([] : List Byte).length + 1 ≤ bodyCap Config.default :=
  ⟨busy_moves .., by decide, by decide⟩

theorem witness_ZeroLengthLaw :
    BlockMoves (busy .awaitStart ([0x4D#8, 0x00#8, 0x00#8, 0x00#8] ++ [0x13#8]) []) ∧
    acceptsAddress Config.default 0x00#8 = true ∧ validSub Config.default 0x00#8 = true :=
  ⟨busy_moves .., by decide, by decide⟩

theorem witness_StepIsTheRulePseudocode (p : Pos) (rxq : List Byte) (fails : List Bool) :
    BlockMoves (busy p rxq fails) ∧ ValidatedPrefix (busy p rxq fails) :=
  ⟨busy_moves .., busy_prefix ..⟩

/-- StepKeepsInvariant and ConfigurationIsConstant; PositionMovesByTheTable, by the reset input. -/
theorem witness_StepKeepsInvariant :
    Inv (calm .awaitSize [] [.hostReset]) ∧ step (calm .awaitSize [] [.hostReset]) = .next (calm .awaitStart [] []) ∧
    (calm .awaitStart [] []).pos ≠ (calm .awaitSize [] [.hostReset]).pos :=
  ⟨calm_inv .., rfl, by decide⟩

/-- PositionMovesByTheTable, by the table; HistoryGrowsByOneEvent, with no event. -/
theorem witness_PositionMovesByTheTable :
    step (busy .awaitStart [0x4D#8] []) = .next (busy .awaitAddress [] []) ∧
    (busy .awaitAddress [] []).pos ≠ (busy .awaitStart [0x4D#8] []).pos :=
  ⟨rfl, by decide⟩

/-- HistoryGrowsByOneEvent, with an event. -/
theorem witness_HistoryGrowsByOneEvent :
    (nextOf (step (busy .awaitBody [0x09#8, 0x3C#8] []))).map (fun t => t.evt.length) =
      some ((busy .awaitBody [0x09#8, 0x3C#8] []).evt.length + 1) := by decide

/-- PowerUpMeetsInvariant, with a source that is full. -/
theorem witness_PowerUpMeetsInvariant :
    cfgC.wf = true ∧ ∀ k, cfgC.rxCap = some k → (List.replicate 259 0x4D#8).length ≤ k :=
  ⟨by decide, by rintro k ⟨⟩; decide +kernel⟩

/-- SinkHoldsOnlyPongs. -/
theorem witness_SinkHoldsOnlyPongs :
    Config.default.wf = true ∧ (∀ m, Config.default.rxCap = some m → ([] : List Byte).length ≤ m) ∧
    Sys2Proof.core.run 1 { State.powerUp Config.default [] with turns := [.hostDrain] } =
      .next { State.powerUp Config.default [] with draining := true } :=
  ⟨by decide, by simp, rfl⟩

theorem witness_NoProgressChangesNothing :
    BlockMoves (busy .awaitBody [0x09#8] []) ∧
    step (busy .awaitBody [0x09#8] []) = .next { busy .awaitBody [0x09#8] [] with draining := false } :=
  ⟨busy_moves .., rfl⟩

theorem witness_ProgressConsumesOrCompletes :
    BlockMoves (busy .awaitStart [0x13#8] []) ∧
    step (busy .awaitStart [0x13#8] []) = .next (busy .awaitStart [] []) ∧ (busy .awaitStart [] []).draining = true :=
  ⟨busy_moves .., rfl, rfl⟩

theorem witness_SoundStatesNeverStop :
    Inv (calm .awaitBody [] [.hostDrain]) ∧ (∀ c, (calm .awaitBody [] [.hostDrain]).turns.head? ≠ some (.hostConfigure c)) ∧
    ¬ ((calm .awaitBody [] [.hostDrain]).turns.head? = some .hostDrain ∧ (calm .awaitBody [] [.hostDrain]).draining = true) :=
  ⟨calm_inv .., by simp [calm], by simp [calm]⟩

/-- ViolationsAreRefused: each clause's premises, with what happens. -/
theorem witness_ViolationsAreRefused :
    refusalOf (step { busy .awaitStart [] [] with cfg := { Config.default with maxBody := 256 } }) =
      some .illegalConfiguration ∧
    refusalOf (step { busy .awaitStart [] [] with turns := [.hostDrain] }) = some .reentrantDrain ∧
    refusalOf (step { busy .awaitStart [] [] with turns := [.hostConfigure cfgC] }) = some .reconfiguration := by decide

theorem witness_ResetMovesOnlyPosition :
    (calm .awaitBody [0x13#8] [.hostReset]).cfg.wf = true ∧
    (calm .awaitBody [0x13#8] [.hostReset]).turns = .hostReset :: [] := by decide

/-- SurroundingsMove: a source with one free place, a full one, a call, no call. -/
theorem witness_SurroundingsMove :
    (∀ k, Config.default.rxCap = some k → (List.replicate 258 0x00#8).length < k) ∧
    (∀ k, Config.default.rxCap = some k → k ≤ (List.replicate 259 0x00#8).length) ∧
    (calm .awaitStart [] [.hostDrain]).draining = false ∧ (calm .awaitStart [] []).turns = [] :=
  ⟨by rintro k ⟨⟩; decide +kernel, by rintro k ⟨⟩; decide +kernel, rfl, rfl⟩

theorem witness_DrainReturnsWithinBound : Inv (calm .awaitBody [] []) ∧ (calm .awaitBody [] []).readScript = [] :=
  ⟨calm_inv .., rfl⟩

theorem witness_IdleDrainChangesNothing :
    Inv (calm .awaitBody [] []) ∧ (calm .awaitBody [] []).rxq = [] ∧ (calm .awaitBody [] []).turns = [] ∧
    (calm .awaitBody [] []).draining = false ∧
    (∀ n : Byte, (calm .awaitBody [] []).pos = .awaitBody → (calm .awaitBody [] []).dbs = some n →
      n ≠ 0x00#8 ∧ n.toNat ≤ (calm .awaitBody [] []).cfg.maxBody) :=
  ⟨calm_inv .., rfl, rfl, rfl, by rintro n - ⟨⟩; decide⟩

theorem witness_ResynchronisationLaw :
    (calm .awaitStart [0x13#8, 0x4C#8, 0x4E#8] []).cfg.wf = true ∧
    ∀ b ∈ (calm .awaitStart [0x13#8, 0x4C#8, 0x4E#8] []).rxq, b ≠ 0x4D#8 :=
  ⟨by decide, by decide⟩

/-- ForeignFrameIsFiltered: a frame for device 02. -/
theorem witness_ForeignFrameIsFiltered :
    (calm .awaitStart [0x4D#8, 0x02#8, 0x01#8, 0x01#8, 0x09#8] []).rxq =
      0x4D#8 :: 0x02#8 :: [0x01#8, 0x01#8, 0x09#8] ∧ (0x02#8 : Byte) ≠ 0x00#8 ∧
    (0x02#8 : Byte) ≠ Config.default.deviceAddress ∧ ∀ b ∈ [0x01#8, 0x01#8, 0x09#8], b ≠ (0x4D#8 : Byte) :=
  ⟨rfl, by decide, by decide, by decide⟩

theorem witness_PiecewiseDeliveryIsTheSame :
    (calm .awaitSubAddress [] []).cfg.wf = true ∧ ValidatedPrefix (calm .awaitSubAddress [] []) ∧
    (calm .awaitSubAddress [] []).readScript = [] :=
  ⟨by decide, (calm_inv ..).validated, rfl⟩

/-- OutputIsAFunctionOfTheStream: an unbounded source, one arrival. -/
theorem witness_OutputIsAFunctionOfTheStream :
    ({ Config.default with rxCap := none } : Config).wf = true ∧
    (∀ turn ∈ [Turn.sender 0x4D#8], plainTurn turn = true) ∧
    ValidatedPrefix (State.powerUp { Config.default with rxCap := none } []) ∧
    Sys2Proof.core.run 1 { State.powerUp { Config.default with rxCap := none } [] with turns := [.sender 0x4D#8] } =
      .next (State.powerUp { Config.default with rxCap := none } [0x4D#8]) :=
  ⟨by decide, by decide, ⟨by simp [State.powerUp], by simp [State.powerUp], by simp [State.powerUp]⟩, rfl⟩

/-- WaitingBlockStaysWaiting: at a header position, and in the middle of a body. -/
theorem witness_WaitingBlockStaysWaiting :
    BlockMoves (busy .awaitBody [0x09#8] []) ∧ ValidatedPrefix (busy .awaitBody [0x09#8] []) ∧
    Quiescent (busy .awaitBody [0x09#8] []) ∧ Quiescent (busy .awaitSize [] []) :=
  ⟨busy_moves .., busy_prefix .., .inr ⟨rfl, 0x02#8, rfl, by decide, by decide, by decide⟩, .inl ⟨rfl, by decide⟩⟩

/-- SmallSourceNeverCompletes: a source of one byte, a body of two; one call. -/
theorem witness_SmallSourceNeverCompletes :
    ∃ s t : State, s.cfg.rxCap = some 1 ∧ s.rxq.length ≤ 1 ∧ 1 < (0x02#8).toNat ∧ s.pos = .awaitBody ∧
      s.dbs = some 0x02#8 ∧ (0x02#8).toNat ≤ s.cfg.maxBody ∧ (∀ turn ∈ s.turns, plainTurn turn = true) ∧
      Sys2Proof.core.run 1 s = .next t :=
  ⟨{ busy .awaitBody [0x09#8] [] with cfg := { Config.default with rxCap := some 1 } }, _, rfl, by decide, by decide, rfl,
    rfl, by decide, by simp [busy], rfl⟩

theorem witness_DrainNeedNotReturn :
    (busy .awaitStart [] []).cfg.wf = true ∧ (busy .awaitStart [] []).rxq = [] ∧
    (busy .awaitStart [] []).draining = true ∧ (0x13#8 : Byte) ≠ 0x4D#8 ∧
    (∀ m, (busy .awaitStart [] []).cfg.rxCap = some m → 1 ≤ m) :=
  ⟨by decide, rfl, rfl, by decide, by simp [busy, Config.default]⟩

/-- PortsCarryTheEvents, at the longest payload. -/
theorem witness_PortsCarryTheEvents :
    (Event.sys 0x81#8 (List.replicate 254 0x00#8)).sound Config.default ∧
    (Event.dev 0x08#8 0x80#8 []).sound Config.default :=
  ⟨⟨by decide, by decide +kernel⟩, ⟨by decide, by decide⟩⟩

/-- ReadsOutsideTheFrameFault: a written slot, the first stale one, one without a value; another position. -/
theorem witness_ReadsOutsideTheFrameFault :
    ((busy .awaitBody [] []).pos = .awaitBody → ∃ n, (busy .awaitBody [] []).dbs = some n) ∧
    (∃ n : Byte, (busy .awaitBody [] []).dbs = some n ∧ 4 ≤ 5 ∧ 5 < 4 + n.toNat ∧ ¬ 6 < 4 + n.toNat) ∧
    Memory.slot [(5, 0x3C#8), (6, 0x55#8)] 5 = some 0x3C#8 ∧ Memory.slot [(5, 0x3C#8), (6, 0x55#8)] 6 = some 0x55#8 ∧
    (busy .awaitBody [] []).sb.slot 7 = none ∧ (busy .awaitSize [] []).pos ≠ .awaitBody :=
  ⟨fun _ => ⟨0x02#8, rfl⟩, ⟨0x02#8, rfl, by decide, by decide, by decide⟩, rfl, rfl, rfl, by decide⟩

/-- ShortOrFailedReadMakesNoProgress: one byte of two; two bytes and a failing read; a header byte missing. -/
theorem witness_ShortOrFailedReadMakesNoProgress :
    (Instr.devMsg 0x01#8 0x03#8 0x09#8 [0x3C#8]).received = true ∧
    completesAt (.devMsg 0x01#8 0x03#8 0x09#8 [0x3C#8]) = .awaitBody ∧
    (Instr.devMsg 0x01#8 0x03#8 0x09#8 [0x3C#8]).body.length = 2 ∧ (busy .awaitBody [0x09#8] []).rxq.length < 2 ∧
    2 ≤ (busy .awaitBody [0x09#8, 0x3C#8] [true]).rxq.length ∧ ¬ ReadSucceeds (busy .awaitBody [0x09#8, 0x3C#8] [true]) ∧
    (busy .awaitStart [] []).rxq.length < 1 :=
  ⟨rfl, rfl, rfl, by decide, by decide, by simp [ReadSucceeds, busy], by decide⟩

/-- ReadPortShowsTheRead: no request, a request that is answered, one that fails; each step answers. -/
theorem witness_ReadPortShowsTheRead :
    BlockMoves (busy .awaitBody [0x09#8] []) ∧ ValidatedPrefix (busy .awaitBody [0x09#8] []) ∧
    rxPop (busy .awaitBody [0x09#8] []) = none ∧ (nextOf (step (busy .awaitBody [0x09#8] []))).isSome = true ∧
    rxPop (busy .awaitSize [0x09#8] []) = some 1#9 ∧ rxFail (busy .awaitSize [0x09#8] []) = false ∧
    (nextOf (step (busy .awaitSize [0x09#8] []))).isSome = true ∧ rxFail (busy .awaitSize [0x09#8] [true]) = true ∧
    (nextOf (step (busy .awaitSize [0x09#8] [true]))).isSome = true :=
  ⟨busy_moves .., busy_prefix .., by decide, by decide, by decide, by decide, by decide, by decide, by decide⟩

end Sys2Proof.Tests
end

section
/-! The `drain` call over bytes without a start marker (40_framer.md R77). -/

namespace Sys2Proof.Machine

open Sys2Proof

/-! ### One turn of the `drain` loop (R65) -/

/-- A step that ends the call ends the loop. -/
theorem drainLoop_of_stopped {k : Nat} {s t : State} (h : step s = .next t) (hd : t.draining = false) :
    drainLoop (k + 1) s = .next t := by
  simp [drainLoop, h, hd]

/-- After a step inside the call the loop goes on. -/
theorem drainLoop_of_running {k : Nat} {s t : State} (h : step s = .next t) (hd : t.draining = true) :
    drainLoop (k + 1) s = drainLoop k t := by
  simp [drainLoop, h, hd]

/-! ### The scan at AwaitStart (R67) -/

/-- Without a byte the scan ends the call. -/
theorem step_awaitStart_nil {s : State} (hs : BlockMoves s) (hp : s.pos = .awaitStart) (hq : s.rxq = []) :
    step s = .next (noProgress s) := by
  rw [step_block hs, microStep_awaitStart hp, fieldStep_nil hq]

/-- Where no read fails, a byte that is no start marker leaves the source and nothing else changes. -/
theorem step_awaitStart_noise {s : State} {b : Byte} {rest : List Byte} (hs : BlockMoves s)
    (hp : s.pos = .awaitStart) (hr : s.readScript = []) (hq : s.rxq = b :: rest) (hb : b ≠ startMarker) :
    step s = .next { s with rxq := rest } := by
  have hread : ReadSucceeds s := by simp [ReadSucceeds, hr]
  have htest : (b == startMarker) = false := beq_eq_false_iff_ne.mpr hb
  rw [step_block hs, microStep_awaitStart hp, fieldStep_rejects (accept := (· == startMarker)) hq hread htest]
  simp only [reject, hr, ← hp, List.tail_nil]

/-- Scanning bytes without a start marker takes one step for each byte and one more, which ends the call. -/
theorem drainLoop_noise {s : State} {k : Nat} {q : List Byte} (hs : BlockMoves s) (hp : s.pos = .awaitStart)
    (hr : s.readScript = []) (hq : s.rxq = q) (hnoise : ∀ b ∈ q, b ≠ startMarker) (hk : q.length ≤ k) :
    drainLoop (k + 1) s = .next (noProgress { s with rxq := [] }) := by
  induction q generalizing s k with
  | nil => rw [drainLoop_of_stopped (step_awaitStart_nil hs hp hq) rfl, ← hq]
  | cons b rest ih =>
    obtain ⟨hb, hrest⟩ := List.forall_mem_cons.mp hnoise
    have hmoves : BlockMoves { s with rxq := rest } := ⟨hs.legal, hs.running, hs.turn⟩
    cases k with
    | zero => simp at hk
    | succ k =>
      calc drainLoop (k + 1 + 1) s
          = drainLoop (k + 1) { s with rxq := rest } :=
            drainLoop_of_running (step_awaitStart_noise hs hp hr hq hb) hs.running
        _ = .next (noProgress { s with rxq := [] }) := ih hmoves hp hr rfl hrest (by simpa using hk)

/-- Settles O50: the scan of the source's bytes (`drainLoop_noise`) fits in the bound of the call. -/
theorem resynchronisationLaw : Obligations.ResynchronisationLaw := by
  intro s hlegal hp hr hnoise
  have hmoves : BlockMoves { s with draining := true, turns := [] } := ⟨hlegal, rfl, rfl⟩
  have hbound : s.rxq.length ≤ 2 * s.rxq.length + 1 := by omega
  exact drainLoop_noise hmoves hp hr rfl hnoise hbound

end Sys2Proof.Machine
end

section
/-! Dispatch of a complete frame (41_dispatch.md R85 to R90), first from the bytes of its body, then for the broadcast
Ping from its start marker on (R93). -/

namespace Sys2Proof.Machine

open Sys2Proof

/-! ### The class of a complete body (R90) -/

/-- The dispatch of an empty body does nothing, to either address (R86). -/
theorem dispatchOf_classify_nil (c : Config) (addr sub : Byte) (s : State) :
    dispatchOf c (classify c addr sub []) s = s := by
  simp only [classify]
  split <;> rfl

theorem classify_broadcast_ping (c : Config) (sub : Byte) (payload : List Byte) :
    classify c broadcast sub (c.pingOpcode :: payload) = .sysPing sub c.pingOpcode payload := by
  simp [classify, isPing]

theorem classify_broadcast_message {c : Config} {cmd : Byte} (h : cmd ≠ c.pingOpcode) (sub : Byte)
    (payload : List Byte) : classify c broadcast sub (cmd :: payload) = .sysMsg sub cmd payload := by
  simp [classify, isPing, h]

theorem classify_device_message (c : Config) {addr : Byte} (h : addr ≠ broadcast) (sub cmd : Byte)
    (payload : List Byte) : classify c addr sub (cmd :: payload) = .devMsg addr sub cmd payload := by
  simp [classify, isPing, h]

/-! ### The step that completes a frame (R71) -/

/-- No dispatch reads or writes `POS`, so the return to AwaitStart may come before it. -/
theorem frameDone_dispatchOf (c : Config) (i : Instr) (s : State) :
    frameDone (dispatchOf c i s) = dispatchOf c i (frameDone s) := by
  cases i <;> rfl

/-- A body that fits the buffer is short enough for its size byte to count it (30_encoding.md R49). -/
theorem toNat_sizeByte {c : Config} {body : List Byte} (h : body.length ≤ bodyCap c) :
    (BitVec.ofNat 8 body.length).toNat = body.length := by
  have hcap : bodyCap c ≤ 255 := Nat.min_le_right ..
  rw [BitVec.toNat_ofNat]
  omega

/-- The step at a complete body takes it and dispatches it by its class. -/
theorem step_bodyReady {s : State} {addr sub : Byte} {body rest : List Byte} (h : BodyReady s addr sub body rest) :
    step s = .next (dispatchOf s.cfg (classify s.cfg addr sub body) (bodyTaken body rest s)) := by
  have hsize := toNat_sizeByte h.fits
  have hlen : body.length ≤ s.rxq.length := by simp [h.bytes]
  have hfits : oversize s.cfg (BitVec.ofNat 8 body.length) = false := by simpa [oversize, hsize] using h.fits
  rw [step_block h.moves]
  obtain ⟨hbig, -⟩ | ⟨-, hshort, -⟩ | ⟨-, -, hfails, -⟩ | ⟨-, -, -, e⟩ :=
    microStep_awaitBody h.position h.address h.subAddress (declaredSize_some h.size)
  · exact absurd hbig (Bool.eq_false_iff.mp hfits)
  · omega
  · exact absurd h.reads hfails
  · rw [e, frameDone_dispatchOf, hsize, h.bytes, List.take_left, List.drop_left]
    rfl

/-- Settles O15: the dispatch of an empty body does nothing, and taking it writes no slot. -/
theorem emptyFrameDoesNothing : Obligations.EmptyFrameDoesNothing := by
  intro s addr sub rest h
  have hrest : rest = s.rxq := h.bytes.symm
  rw [step_bodyReady h, dispatchOf_classify_nil, hrest]
  rfl

/-- Settles O16: a broadcast frame with the ping opcode is a `SYS_PING`, whose dispatch writes the Pong frame. -/
theorem broadcastPingIsAnswered : Obligations.BroadcastPingIsAnswered := by
  intro s sub payload rest h
  rw [step_bodyReady (addr := broadcast) h, classify_broadcast_ping]
  rfl

/-- Settles O17: any other broadcast frame is a `SYS_MSG`, whose dispatch calls the system handler. -/
theorem broadcastMessageIsForwarded : Obligations.BroadcastMessageIsForwarded := by
  intro s sub cmd payload rest h hcmd
  rw [step_bodyReady (addr := broadcast) h, classify_broadcast_message hcmd]
  rfl

/-- Settles O18: a frame to another address is a `DEV_MSG`, whose dispatch calls the device handler. -/
theorem deviceMessageIsForwarded : Obligations.DeviceMessageIsForwarded := by
  intro s addr sub cmd payload rest h haddr
  rw [step_bodyReady h, classify_device_message s.cfg haddr]
  rfl

/-! ### The four steps that take a header (R67 to R70) -/

theorem acceptsAddress_broadcast (c : Config) : acceptsAddress c broadcast = true := by
  simp [acceptsAddress]

/-- Where no read fails, a header byte that passes the test of its position is stored, and nothing else changes. -/
theorem step_accepts {accept : Byte → Bool} {s : State} {b : Byte} {rest : List Byte} (hs : BlockMoves s)
    (hr : s.readScript = []) (hm : microStep s = fieldStep accept s) (hq : s.rxq = b :: rest) (hb : accept b = true) :
    step s = .next (acceptField b { s with rxq := rest }) := by
  have hread : ReadSucceeds s := by simp [ReadSucceeds, hr]
  rw [step_block hs, hm, fieldStep_accepts hq hread hb, hr, List.tail_nil, ← hr]

theorem step_takes_marker {s : State} {rest : List Byte} (hs : BlockMoves s) (hr : s.readScript = [])
    (hp : s.pos = .awaitStart) (hq : s.rxq = startMarker :: rest) :
    step s = .next { s with rxq := rest, pos := .awaitAddress } := by
  rw [step_accepts hs hr (microStep_awaitStart hp) hq (beq_self_eq_true _)]
  simp only [acceptField, hp]

theorem step_takes_address {s : State} {addr : Byte} {rest : List Byte} (hs : BlockMoves s) (hr : s.readScript = [])
    (hp : s.pos = .awaitAddress) (hq : s.rxq = addr :: rest) (haddr : acceptsAddress s.cfg addr = true) :
    step s = .next { s with rxq := rest, sb := s.sb.put 1 addr, pos := .awaitSubAddress } := by
  rw [step_accepts hs hr (microStep_awaitAddress hp) hq haddr]
  simp only [acceptField, hp, addressSlot]

theorem step_takes_subAddress {s : State} {addr sub : Byte} {rest : List Byte} (hs : BlockMoves s)
    (hr : s.readScript = []) (hp : s.pos = .awaitSubAddress) (h1 : s.sb.slot 1 = some addr)
    (hq : s.rxq = sub :: rest) (hsub : validSub s.cfg sub = true) :
    step s = .next { s with rxq := rest, sb := s.sb.put 2 sub, pos := .awaitSize } := by
  rw [step_accepts hs hr (microStep_awaitSubAddress hp h1) hq hsub]
  simp only [acceptField, hp, subAddressSlot]

theorem step_takes_size {s : State} {addr sub n : Byte} {rest : List Byte} (hs : BlockMoves s) (hr : s.readScript = [])
    (hp : s.pos = .awaitSize) (h1 : s.sb.slot 1 = some addr) (h2 : s.sb.slot 2 = some sub) (hq : s.rxq = n :: rest) :
    step s = .next { s with rxq := rest, dbs := some n, pos := .awaitBody } := by
  rw [step_accepts hs hr (microStep_awaitSize hp h1 h2) hq rfl]
  simp only [acceptField, hp]

/-- The state after a header has been taken from AwaitStart: its address and sub-address in slots 1 and 2, its size in
`DBS`, `rest` in the byte source, the parser at AwaitBody. -/
def headerTaken (addr sub n : Byte) (rest : List Byte) (s : State) : State :=
  { s with pos := .awaitBody, dbs := some n, sb := (s.sb.put 1 addr).put 2 sub, rxq := rest }

theorem headerTaken_slot_address (addr sub n : Byte) (rest : List Byte) (s : State) :
    (headerTaken addr sub n rest s).sb.slot 1 = some addr := by
  rw [headerTaken, Memory.slot_put_other _ _ (by decide), Memory.slot_put_same]

theorem headerTaken_slot_subAddress (addr sub n : Byte) (rest : List Byte) (s : State) :
    (headerTaken addr sub n rest s).sb.slot 2 = some sub :=
  Memory.slot_put_same ..

/-- From AwaitStart, where no read fails, a header that passes the checks is taken in four steps. -/
theorem run_header {s : State} {addr sub n : Byte} {rest : List Byte} (hs : BlockMoves s) (hr : s.readScript = [])
    (hp : s.pos = .awaitStart) (haddr : acceptsAddress s.cfg addr = true) (hsub : validSub s.cfg sub = true)
    (hq : s.rxq = startMarker :: addr :: sub :: n :: rest) :
    core.run 4 s = .next (headerTaken addr sub n rest s) := by
  obtain ⟨legal, running, turn⟩ := hs
  refine Eq.trans (run_succ (step_takes_marker ⟨legal, running, turn⟩ hr hp hq)) ?_
  refine Eq.trans (run_succ (step_takes_address ⟨legal, running, turn⟩ hr rfl rfl haddr)) ?_
  refine Eq.trans (run_succ (step_takes_subAddress ⟨legal, running, turn⟩ hr rfl (Memory.slot_put_same ..) rfl
    hsub)) ?_
  exact run_succ (step_takes_size ⟨legal, running, turn⟩ hr rfl (headerTaken_slot_address addr sub n rest s)
    (headerTaken_slot_subAddress addr sub n rest s) rfl)

/-- After its header, a frame whose body fits and stands in the byte source is about to complete. -/
theorem bodyReady_headerTaken {s : State} {addr sub : Byte} {body rest : List Byte} (hs : BlockMoves s)
    (hr : s.readScript = []) (hfits : body.length ≤ bodyCap s.cfg) :
    BodyReady (headerTaken addr sub (BitVec.ofNat 8 body.length) (body ++ rest) s) addr sub body rest where
  moves := ⟨hs.legal, hs.running, hs.turn⟩
  reads := by simp [ReadSucceeds, headerTaken, hr]
  position := rfl
  address := headerTaken_slot_address ..
  subAddress := headerTaken_slot_subAddress ..
  size := rfl
  fits := hfits
  bytes := rfl

/-- From AwaitStart, where no read fails, an accepted frame whose body fits runs in five steps: header and body are
taken, and its class is dispatched. -/
theorem run_frame {s : State} {addr sub : Byte} {body rest : List Byte} (hs : BlockMoves s) (hr : s.readScript = [])
    (hp : s.pos = .awaitStart) (haddr : acceptsAddress s.cfg addr = true) (hsub : validSub s.cfg sub = true)
    (hfits : body.length ≤ bodyCap s.cfg) (hq : s.rxq = frame addr sub body ++ rest) :
    core.run 5 s = .next (dispatchOf s.cfg (classify s.cfg addr sub body)
      (bodyTaken body rest (headerTaken addr sub (BitVec.ofNat 8 body.length) (body ++ rest) s))) := by
  have header : core.run 4 s = .next (headerTaken addr sub (BitVec.ofNat 8 body.length) (body ++ rest) s) :=
    run_header hs hr hp haddr hsub hq
  rw [run_add (j := 4) (k := 1) header, run_succ (step_bodyReady (bodyReady_headerTaken hs hr hfits))]
  rfl

/-- Settles O32: the Ping frame runs as a `SYS_PING`, whose dispatch writes the Pong frame. -/
theorem pingLaw : Obligations.PingLaw := by
  intro s sub payload rest hs hr hp hsub hfits hq
  have hrun := run_frame (body := s.cfg.pingOpcode :: payload) hs hr hp (acceptsAddress_broadcast s.cfg) hsub hfits hq
  rw [classify_broadcast_ping] at hrun
  exact ⟨_, hrun, rfl, rfl, rfl, rfl⟩

end Sys2Proof.Machine
end

section
/-! The micro-steps that reject an input (60_exceptions.md R110). -/

namespace Sys2Proof.Machine

open Sys2Proof

/-- Where the offending byte is there and its read succeeds, the read and reject of R67 to R69 take that byte and do
what `reject` does. -/
theorem readThen_reject_ok {s : State} (hr : ReadSucceeds s) (hq : s.rxq ≠ []) :
    readThen 1 s (fun _ t => .next (reject t)) =
      .next { s with readScript := s.readScript.tail, rxq := s.rxq.tail, pos := .awaitStart } := by
  have hlen : 1 ≤ s.rxq.length := List.length_pos_iff.mpr hq
  rw [readThen_ok hlen hr, List.drop_one]
  rfl

/-- Settles O21: three of the rejects are the one read and reject of `readThen_reject_ok`; `REJ_SIZE` is `reject`
without a read. -/
theorem rejectedInputsComplete : Obligations.RejectedInputsComplete := by
  intro s x addr sub n
  refine ⟨fun hr hq => ?_, rfl⟩
  have rejects := readThen_reject_ok hr hq
  exact ⟨rejects, rejects, rejects⟩

end Sys2Proof.Machine
end

section
/-! The encoding (30_encoding.md R45 to R57): decoding inverts encoding in both directions, and stops only for bytes. -/

namespace Sys2Proof.Machine

open Sys2Proof

/-! ### What the decoder reads from bytes that stand for an instruction -/

/-- The decoder passes a header whose address and sub-address are accepted, up to its size byte. -/
theorem decode_header {c : Config} {addr sub : Byte} (haddr : acceptsAddress c addr = true)
    (hsub : validSub c sub = true) (bs : List Byte) :
    decode c (startMarker :: addr :: sub :: bs) = decodeSize c addr sub bs := by
  simp [decode, decodeAddress, decodeSubAddress, haddr, hsub]

theorem decodeBody_fits {c : Config} {n : Byte} (addr sub : Byte) {body : List Byte} (hn : n.toNat = body.length)
    (hfits : body.length ≤ bodyCap c) (rest : List Byte) :
    decodeBody c addr sub n (body ++ rest) = .ok (classify c addr sub body, rest) := by
  have hguard : oversize c n = false := by simpa [oversize, hn] using hfits
  simp [decodeBody, hguard, hn]

/-- An accepted frame whose body fits decodes to the class of its body (R54). -/
theorem decode_frame {c : Config} {addr sub : Byte} {body : List Byte} (haddr : acceptsAddress c addr = true)
    (hsub : validSub c sub = true) (hfits : body.length ≤ bodyCap c) (rest : List Byte) :
    decode c (frame addr sub body ++ rest) = .ok (classify c addr sub body, rest) :=
  (decode_header haddr hsub _).trans (decodeBody_fits addr sub (toNat_sizeByte hfits) hfits rest)

theorem decode_rejSub {c : Config} {addr x : Byte} (haddr : acceptsAddress c addr = true)
    (hx : validSub c x = false) (rest : List Byte) :
    decode c (startMarker :: addr :: x :: rest) = .ok (.rejSub addr x, rest) := by
  simp [decode, decodeAddress, decodeSubAddress, haddr, hx]

theorem decode_rejSize {c : Config} {addr sub n : Byte} (haddr : acceptsAddress c addr = true)
    (hsub : validSub c sub = true) (hn : oversize c n = true) (rest : List Byte) :
    decode c (startMarker :: addr :: sub :: n :: rest) = .ok (.rejSize addr sub n, rest) := by
  rw [decode_header haddr hsub, decodeSize, decodeBody, if_pos hn]

/-! ### The classes of a body -/

theorem ownAddress_iff (c : Config) (a : Byte) : ownAddress c a = true ↔ a ≠ broadcast ∧ a = c.deviceAddress := by
  simp [ownAddress]

theorem acceptsAddress_iff (c : Config) (a : Byte) :
    acceptsAddress c a = true ↔ a = broadcast ∨ a = c.deviceAddress := by
  simp [acceptsAddress]

theorem validSub_iff (c : Config) (b : Byte) :
    validSub c b = true ↔ b = 0x00#8 ∨ (c.minDrive.toNat ≤ b.toNat ∧ b.toNat ≤ c.maxDrive.toNat) := by
  simp [validSub, allDrives]

theorem acceptsAddress_of_own {c : Config} {a : Byte} (h : ownAddress c a = true) : acceptsAddress c a = true :=
  (acceptsAddress_iff c a).mpr (.inr ((ownAddress_iff c a).mp h).2)

theorem ownAddress_of_accepted {c : Config} {a : Byte} (h : acceptsAddress c a = true) (hne : a ≠ broadcast) :
    ownAddress c a = true :=
  (ownAddress_iff c a).mpr ⟨hne, ((acceptsAddress_iff c a).mp h).resolve_left hne⟩

@[simp] theorem classify_broadcast_empty (c : Config) (sub : Byte) : classify c broadcast sub [] = .sysEmpty sub := rfl

theorem classify_device_empty (c : Config) {addr : Byte} (h : addr ≠ broadcast) (sub : Byte) :
    classify c addr sub [] = .devEmpty addr sub := by
  simp [classify, h]

/-- The class of a body with an accepted header is well formed. -/
theorem wf_classify {c : Config} {addr sub : Byte} {body : List Byte} (haddr : acceptsAddress c addr = true)
    (hsub : validSub c sub = true) (hfits : body.length ≤ bodyCap c) : (classify c addr sub body).wf c = true := by
  by_cases hb : addr = broadcast
  · subst hb
    cases body with
    | nil => simpa [Instr.wf] using hsub
    | cons cmd payload =>
      have hbody : bodyFits c payload = true := by simpa [bodyFits] using hfits
      by_cases hcmd : cmd = c.pingOpcode
      · subst hcmd; simp [classify_broadcast_ping, Instr.wf, hsub, hbody]
      · simp [classify_broadcast_message hcmd, Instr.wf, hsub, hbody, hcmd]
  · have hown := ownAddress_of_accepted haddr hb
    cases body with
    | nil => simp [classify_device_empty c hb, Instr.wf, hown, hsub]
    | cons cmd payload =>
      have hbody : bodyFits c payload = true := by simpa [bodyFits] using hfits
      simp [classify_device_message c hb, Instr.wf, hown, hsub, hbody]

/-- The class of a body is encoded by the frame that carries it. -/
theorem encode_classify (c : Config) (addr sub : Byte) (body : List Byte) :
    encode (classify c addr sub body) = frame addr sub body := by
  by_cases hb : addr = broadcast
  · subst hb
    cases body with
    | nil => rfl
    | cons cmd payload =>
      by_cases hcmd : cmd = c.pingOpcode
      · subst hcmd; rw [classify_broadcast_ping, encode]
      · rw [classify_broadcast_message hcmd, encode]
  · cases body with
    | nil => rw [classify_device_empty c hb, encode]
    | cons cmd payload => rw [classify_device_message c hb, encode]

/-- The received instructions that the encoding admits: the classes of an accepted frame, and the four rejected
inputs (R54, R55). -/
inductive Admitted (c : Config) : Instr → Prop where
  | frame {addr sub : Byte} {body : List Byte} (haddr : acceptsAddress c addr = true) (hsub : validSub c sub = true)
      (hfits : body.length ≤ bodyCap c) : Admitted c (classify c addr sub body)
  | noise {x : Byte} (hx : x ≠ startMarker) : Admitted c (.rejNoise x)
  | address {x : Byte} (hx : acceptsAddress c x = false) : Admitted c (.rejAddr x)
  | subAddress {addr x : Byte} (haddr : acceptsAddress c addr = true) (hx : validSub c x = false) :
      Admitted c (.rejSub addr x)
  | size {addr sub n : Byte} (haddr : acceptsAddress c addr = true) (hsub : validSub c sub = true)
      (hn : oversize c n = true) : Admitted c (.rejSize addr sub n)

/-- Each row's own condition makes it one of them. -/
theorem admitted_of_wf {c : Config} {i : Instr} (hwf : i.wf c = true) (hi : i.received = true) : Admitted c i := by
  cases i with
  | sysPing sub cmd payload =>
    obtain ⟨⟨hsub, rfl⟩, hfits⟩ :
        (validSub c sub = true ∧ cmd = c.pingOpcode) ∧ (cmd :: payload).length ≤ bodyCap c := by
      simpa [Instr.wf, bodyFits] using hwf
    exact classify_broadcast_ping c sub payload ▸ .frame (acceptsAddress_broadcast c) hsub hfits
  | sysMsg sub cmd payload =>
    obtain ⟨⟨hsub, hcmd⟩, hfits⟩ :
        (validSub c sub = true ∧ cmd ≠ c.pingOpcode) ∧ (cmd :: payload).length ≤ bodyCap c := by
      simpa [Instr.wf, bodyFits] using hwf
    exact classify_broadcast_message hcmd sub payload ▸ .frame (acceptsAddress_broadcast c) hsub hfits
  | devMsg addr sub cmd payload =>
    obtain ⟨⟨hown, hsub⟩, hfits⟩ :
        (ownAddress c addr = true ∧ validSub c sub = true) ∧ (cmd :: payload).length ≤ bodyCap c := by
      simpa [Instr.wf, bodyFits] using hwf
    have hne := ((ownAddress_iff c addr).mp hown).1
    exact classify_device_message c hne sub cmd payload ▸ .frame (acceptsAddress_of_own hown) hsub hfits
  | sysEmpty sub => exact .frame (body := []) (acceptsAddress_broadcast c) hwf (Nat.zero_le _)
  | devEmpty addr sub =>
    obtain ⟨hown, hsub⟩ : ownAddress c addr = true ∧ validSub c sub = true := by simpa [Instr.wf] using hwf
    have hne := ((ownAddress_iff c addr).mp hown).1
    exact classify_device_empty c hne sub ▸ .frame (acceptsAddress_of_own hown) hsub (Nat.zero_le _)
  | rejNoise x => exact .noise (by simpa [Instr.wf] using hwf)
  | rejAddr x => exact .address (by simpa [Instr.wf] using hwf)
  | rejSub addr x =>
    obtain ⟨haddr, hx⟩ : acceptsAddress c addr = true ∧ validSub c x = false := by simpa [Instr.wf] using hwf
    exact .subAddress haddr hx
  | rejSize addr sub n =>
    obtain ⟨⟨haddr, hsub⟩, hn⟩ :
        (acceptsAddress c addr = true ∧ validSub c sub = true) ∧ oversize c n = true := by
      simpa [Instr.wf] using hwf
    exact .size haddr hsub hn
  | pong => exact nomatch hi

/-- Settles O1: a frame's encoding decodes to the class of its body (`decode_frame`); a rejected input's encoding stops
the decoder at the offending byte. -/
theorem decodeInvertsEncode : Obligations.DecodeInvertsEncode := by
  intro c i rest hwf hi
  cases admitted_of_wf hwf hi with
  | frame haddr hsub hfits => rw [encode_classify, decode_frame haddr hsub hfits]
  | noise hx => simp [encode, decode, hx]
  | address hx => simp [encode, decode, decodeAddress, hx]
  | subAddress haddr hx => exact decode_rejSub haddr hx rest
  | size haddr hsub hn => exact decode_rejSize haddr hsub hn rest

/-! ### What the decoder has read, from AwaitBody back to AwaitStart -/

/-- What a decoding of `bytes` answers is well formed, received, and encoded by exactly the bytes taken. -/
def ReadsFrom (c : Config) (bytes : List Byte) (i : Instr) (rest : List Byte) : Prop :=
  i.wf c = true ∧ i.received = true ∧ bytes = encode i ++ rest

theorem decodeBody_readsFrom {c : Config} {addr sub n : Byte} {bs rest : List Byte} {i : Instr}
    (haddr : acceptsAddress c addr = true) (hsub : validSub c sub = true)
    (h : decodeBody c addr sub n bs = .ok (i, rest)) :
    ReadsFrom c (startMarker :: addr :: sub :: n :: bs) i rest := by
  obtain ⟨hn, e⟩ | ⟨-, -, e⟩ | ⟨hn, hlen, e⟩ := decodeBody_cases c addr sub n bs <;> rw [e] at h <;> cases h
  · exact ⟨by simp [Instr.wf, haddr, hsub, hn], rfl, rfl⟩
  · have htake : (bs.take n.toNat).length = n.toNat := List.length_take_of_le hlen
    have hfits : n.toNat ≤ bodyCap c := by simpa [oversize] using hn
    refine ⟨wf_classify haddr hsub (by omega), received_classify .., ?_⟩
    simp [encode_classify, frame, hlen]

theorem decodeSize_readsFrom {c : Config} {addr sub : Byte} {bs rest : List Byte} {i : Instr}
    (haddr : acceptsAddress c addr = true) (hsub : validSub c sub = true)
    (h : decodeSize c addr sub bs = .ok (i, rest)) :
    ReadsFrom c (startMarker :: addr :: sub :: bs) i rest := by
  cases bs with
  | nil => exact nomatch h
  | cons n bs => exact decodeBody_readsFrom haddr hsub h

theorem decodeSubAddress_readsFrom {c : Config} {addr : Byte} {bs rest : List Byte} {i : Instr}
    (haddr : acceptsAddress c addr = true) (h : decodeSubAddress c addr bs = .ok (i, rest)) :
    ReadsFrom c (startMarker :: addr :: bs) i rest := by
  cases bs with
  | nil => exact nomatch h
  | cons x bs =>
    rw [decodeSubAddress] at h
    split at h
    · next hx => exact decodeSize_readsFrom haddr hx h
    · next hx => cases h; exact ⟨by simp [Instr.wf, haddr, hx], rfl, rfl⟩

theorem decodeAddress_readsFrom {c : Config} {bs rest : List Byte} {i : Instr}
    (h : decodeAddress c bs = .ok (i, rest)) : ReadsFrom c (startMarker :: bs) i rest := by
  cases bs with
  | nil => exact nomatch h
  | cons x bs =>
    rw [decodeAddress] at h
    split at h
    · next hx => exact decodeSubAddress_readsFrom hx h
    · next hx => cases h; exact ⟨by simp [Instr.wf, hx], rfl, rfl⟩

/-- Settles O2: position by position, the decoder keeps the bytes it passes in the instruction it answers. -/
theorem decodedInstructionIsWellFormed : Obligations.DecodedInstructionIsWellFormed := by
  intro c bytes i rest h
  cases bytes with
  | nil => exact nomatch h
  | cons x bs =>
    rw [decode] at h
    split at h
    · next hx =>
      obtain rfl : x = startMarker := eq_of_beq hx
      exact decodeAddress_readsFrom h
    · next hx => cases h; exact ⟨by simpa [Instr.wf] using hx, rfl, rfl⟩

/-! ### The class table -/

/-- Settles O3: the frame decodes to the class of its body, and the class follows from address, size and command. -/
theorem acceptedFrameHasItsClass : Obligations.AcceptedFrameHasItsClass := by
  intro c addr sub body rest hlegal haddr hsub hfits
  have hdecode := decode_frame haddr hsub hfits rest
  have hdevice : c.deviceAddress ≠ broadcast := by
    simp only [Config.wf, Bool.and_eq_true, bne_iff_ne] at hlegal
    exact hlegal.1
  refine ⟨?_, ?_, ?_, (acceptsAddress_iff c addr).mp haddr, hdevice⟩
  · rintro rfl rfl
    exact hdecode
  · rintro rfl rfl
    rw [hdecode, classify_device_empty c hdevice]
  · rintro cmd payload rfl
    refine ⟨?_, ?_, ?_⟩
    · rintro (rfl : addr = broadcast) rfl
      rw [hdecode, classify_broadcast_ping]
    · rintro (rfl : addr = broadcast) hcmd
      rw [hdecode, classify_broadcast_message hcmd]
    · rintro rfl
      rw [hdecode, classify_device_message c hdevice]

/-- Settles O5, by evaluation of the decoder on the nine strings. -/
theorem writtenOutWordsDecode : Obligations.WrittenOutWordsDecode :=
  ⟨rfl, rfl, rfl, rfl, rfl, rfl, rfl, rfl, rfl⟩

/-- Settles O6: the Pong is the broadcast frame of a body of four bytes whose command is not the ping opcode. -/
theorem receivedPongIsSystemMessage : Obligations.ReceivedPongIsSystemMessage := by
  intro c addr lo hi rest hcmd hcap
  have hframe : encode (.pong c.pongOpcode addr lo hi) = frame broadcast 0x00#8 [c.pongOpcode, addr, lo, hi] := rfl
  have hsub : validSub c 0x00#8 = true := (validSub_iff c _).mpr (.inl rfl)
  refine ⟨hframe, hsub, ?_, rfl⟩
  rw [hframe, decode_frame (acceptsAddress_broadcast c) hsub (body := [_, _, _, _]) hcap,
    classify_broadcast_message hcmd]

/-- Settles O7: the neighbours are not 0 and lie outside the range, since neither wraps around. -/
theorem subAddressNeighbours : Obligations.SubAddressNeighbours := by
  intro c addr rest haddr
  refine ⟨fun s hs => decode_header haddr ((validSub_iff c s).mpr hs) [], fun hmin => ?_, fun hmax => ?_⟩
  · refine decode_rejSub haddr (Bool.eq_false_iff.mpr fun hvalid => ?_) rest
    obtain h | h := (validSub_iff c _).mp hvalid <;> bv_omega
  · refine decode_rejSub haddr (Bool.eq_false_iff.mpr fun hvalid => ?_) rest
    obtain h | h := (validSub_iff c _).mp hvalid <;> bv_omega

/-! ### Where decoding stops -/

/-- Some continuation of `bytes` makes one whole instruction of them under the decoder `d`. -/
def Completes (d : List Byte → Except DecodeError (Instr × List Byte)) (bytes : List Byte) : Prop :=
  ∃ (more : List Byte) (i : Instr), d (bytes ++ more) = .ok (i, [])

/-- A body cut short is completed by as many bytes as it lacks. -/
theorem decodeBody_stops {c : Config} {addr sub n : Byte} {bs : List Byte} {e : DecodeError}
    (h : decodeBody c addr sub n bs = .error e) : bs.length < 255 ∧ Completes (decodeBody c addr sub n) bs := by
  obtain ⟨-, e'⟩ | ⟨hn, hlen, -⟩ | ⟨-, -, e'⟩ := decodeBody_cases c addr sub n bs
  · exact nomatch e'.symm.trans h
  · have hfits : n.toNat ≤ bodyCap c := by simpa [oversize] using hn
    have hcap : bodyCap c ≤ 255 := Nat.min_le_right ..
    have hbody : n.toNat = (bs ++ List.replicate (n.toNat - bs.length) 0x00#8).length := by
      rw [List.length_append, List.length_replicate]; omega
    have hread := decodeBody_fits addr sub hbody (hbody ▸ hfits) []
    rw [List.append_nil] at hread
    exact ⟨by omega, _, _, hread⟩
  · exact nomatch e'.symm.trans h

/-- A size byte of zero completes a header. -/
theorem decodeSize_stops {c : Config} {addr sub : Byte} {bs : List Byte} {e : DecodeError}
    (h : decodeSize c addr sub bs = .error e) : bs.length < 256 ∧ Completes (decodeSize c addr sub) bs := by
  cases bs with
  | nil => exact ⟨by simp, [0x00#8], _, decodeBody_fits (body := []) addr sub rfl (Nat.zero_le _) []⟩
  | cons n bs =>
    obtain ⟨hlen, hmore⟩ := decodeBody_stops h
    exact ⟨Nat.succ_lt_succ hlen, hmore⟩

theorem decodeSubAddress_stops {c : Config} {addr : Byte} {bs : List Byte} {e : DecodeError}
    (h : decodeSubAddress c addr bs = .error e) : bs.length < 257 ∧ Completes (decodeSubAddress c addr) bs := by
  cases bs with
  | nil =>
    have hsub : validSub c 0x00#8 = true := (validSub_iff c _).mpr (.inl rfl)
    obtain ⟨-, more, i, hmore⟩ := decodeSize_stops (c := c) (addr := addr) (sub := 0x00#8) (bs := []) rfl
    exact ⟨by simp, 0x00#8 :: more, i, by simpa [decodeSubAddress, hsub] using hmore⟩
  | cons x bs =>
    rw [decodeSubAddress] at h
    split at h
    · next hx =>
      obtain ⟨hlen, more, i, hmore⟩ := decodeSize_stops h
      exact ⟨Nat.succ_lt_succ hlen, more, i, by simpa [decodeSubAddress, hx] using hmore⟩
    · exact nomatch h

theorem decodeAddress_stops {c : Config} {bs : List Byte} {e : DecodeError}
    (h : decodeAddress c bs = .error e) : bs.length < 258 ∧ Completes (decodeAddress c) bs := by
  cases bs with
  | nil =>
    obtain ⟨-, more, i, hmore⟩ := decodeSubAddress_stops (c := c) (addr := broadcast) (bs := []) rfl
    exact ⟨by simp, broadcast :: more, i, by simpa [decodeAddress, acceptsAddress_broadcast] using hmore⟩
  | cons x bs =>
    rw [decodeAddress] at h
    split at h
    · next hx =>
      obtain ⟨hlen, more, i, hmore⟩ := decodeSubAddress_stops h
      exact ⟨Nat.succ_lt_succ hlen, more, i, by simpa [decodeAddress, hx] using hmore⟩
    · exact nomatch h

/-- Settles O4: at each position the missing field can be supplied, and what was read stays within one frame. -/
theorem decodingStopsOnlyForBytes : Obligations.DecodingStopsOnlyForBytes := by
  intro c bytes p h
  cases bytes with
  | nil => exact ⟨by simp, [0x00#8], .rejNoise 0x00#8, rfl⟩
  | cons x bs =>
    rw [decode] at h
    split at h
    · next hx =>
      obtain ⟨hlen, more, i, hmore⟩ := decodeAddress_stops h
      exact ⟨Nat.succ_lt_succ hlen, more, i, by simpa [decode, hx] using hmore⟩
    · exact nomatch h

end Sys2Proof.Machine
end

section
/-! The five state rules, one micro-step each (40_framer.md R66 to R73), and the refinement of their pseudocode. -/

namespace Sys2Proof.Machine

open Sys2Proof

/-! ### The header positions (R67 to R70) -/

theorem acceptField_awaitStart {s : State} (hp : s.pos = .awaitStart) (b : Byte) :
    acceptField b s = { s with pos := .awaitAddress } := by
  simp only [acceptField, hp]

theorem acceptField_awaitAddress {s : State} (hp : s.pos = .awaitAddress) (b : Byte) :
    acceptField b s = { s with sb := s.sb.put 1 b, pos := .awaitSubAddress } := by
  simp only [acceptField, hp, addressSlot]

theorem acceptField_awaitSubAddress {s : State} (hp : s.pos = .awaitSubAddress) (b : Byte) :
    acceptField b s = { s with sb := s.sb.put 2 b, pos := .awaitSize } := by
  simp only [acceptField, hp, subAddressSlot]

theorem acceptField_awaitSize {s : State} (hp : s.pos = .awaitSize) (b : Byte) :
    acceptField b s = { s with dbs := some b, pos := .awaitBody } := by
  simp only [acceptField, hp]

/-- The step of a header position whose test is `accept`, in its four cases. -/
theorem step_header {accept : Byte → Bool} {s : State} (hs : BlockMoves s) (hm : microStep s = fieldStep accept s) :
    (s.rxq = [] → step s = .next { s with draining := false }) ∧
    (∀ b rest, s.rxq = b :: rest →
      (¬ ReadSucceeds s → step s = .next { s with draining := false, readScript := s.readScript.tail }) ∧
      (ReadSucceeds s → accept b = true →
        step s = .next (acceptField b { s with readScript := s.readScript.tail, rxq := rest })) ∧
      (ReadSucceeds s → accept b = false →
        step s = .next { s with readScript := s.readScript.tail, rxq := rest, pos := .awaitStart })) := by
  rw [step_block hs, hm]
  refine ⟨fieldStep_nil, fun b rest hq => ⟨fun hr => ?_, fun hr hb => ?_, fun hr hb => ?_⟩⟩
  · exact fieldStep_fails (by simp [hq]) hr
  · exact fieldStep_accepts hq hr hb
  · exact fieldStep_rejects hq hr hb

/-- Settles O8: the test of the position is for the marker. -/
theorem awaitStartScansForMarker : Obligations.AwaitStartScansForMarker := by
  intro s hs hp
  obtain ⟨hnil, hcons⟩ := step_header hs (microStep_awaitStart hp)
  refine ⟨hnil, fun b rest hq => ?_⟩
  obtain ⟨hfails, haccepts, hrejects⟩ := hcons b rest hq
  refine ⟨hfails, fun hr hb => ?_, fun hr hb => hrejects hr (beq_eq_false_iff_ne.mpr hb)⟩
  rw [haccepts hr (beq_iff_eq.mpr hb)]
  simp only [acceptField_awaitStart, hp]

/-- Settles O9: the test of the position is for an accepted address. -/
theorem awaitAddressDecodesTarget : Obligations.AwaitAddressDecodesTarget := by
  intro s hs hp
  obtain ⟨hnil, hcons⟩ := step_header hs (microStep_awaitAddress hp)
  refine ⟨hnil, fun b rest hq => ?_⟩
  obtain ⟨hfails, haccepts, hrejects⟩ := hcons b rest hq
  refine ⟨hfails, fun hr hb => ?_, fun hr hb => ?_⟩
  · rw [haccepts hr ((acceptsAddress_iff ..).mpr hb)]
    simp only [acceptField_awaitAddress, hp]
  · exact hrejects hr (Bool.eq_false_iff.mpr fun h => hb ((acceptsAddress_iff ..).mp h))

/-- Settles O10: the test of the position is for a valid sub-address; the fetch finds the stored address. -/
theorem awaitSubAddressChecksRange : Obligations.AwaitSubAddressChecksRange := by
  intro s hs hv hp
  obtain ⟨a, ha, -⟩ := hv.address (.inl hp)
  obtain ⟨hnil, hcons⟩ := step_header hs (microStep_awaitSubAddress hp ha)
  refine ⟨hnil, fun b rest hq => ?_⟩
  obtain ⟨hfails, haccepts, hrejects⟩ := hcons b rest hq
  refine ⟨hfails, fun hr hb => ?_, fun hr hb => ?_⟩
  · rw [haccepts hr ((validSub_iff ..).mpr hb)]
    simp only [acceptField_awaitSubAddress, hp]
  · exact hrejects hr (Bool.eq_false_iff.mpr fun h => hb ((validSub_iff ..).mp h))

/-- Settles O11: the position accepts every byte; the fetch finds the stored address and sub-address. -/
theorem awaitSizeLatchesAnySize : Obligations.AwaitSizeLatchesAnySize := by
  intro s hs hv hp
  obtain ⟨a, ha, -⟩ := hv.address (.inr (.inl hp))
  obtain ⟨b, hb, -⟩ := hv.subAddress (.inl hp)
  obtain ⟨hnil, hcons⟩ := step_header hs (microStep_awaitSize hp ha hb)
  refine ⟨hnil, fun n rest hq => ?_⟩
  obtain ⟨hfails, haccepts, -⟩ := hcons n rest hq
  exact ⟨hfails, fun hr => by rw [haccepts hr rfl]; simp only [acceptField_awaitSize, hp]⟩

/-! ### AwaitBody (R71, R72) -/

/-- Everything a step at AwaitBody can do, by the rule's own guard. -/
theorem step_awaitBody {s : State} {a b n : Byte} (hs : BlockMoves s) (hp : s.pos = .awaitBody)
    (ha : s.sb.slot 1 = some a) (hb : s.sb.slot 2 = some b) (hn : s.dbs = some n) :
    (s.cfg.maxBody < n.toNat ∧ step s = .next (reject s)) ∨
    (n.toNat ≤ s.cfg.maxBody ∧ s.rxq.length < n.toNat ∧ step s = .next (noProgress s)) ∨
    (n.toNat ≤ s.cfg.maxBody ∧ n.toNat ≤ s.rxq.length ∧ ¬ ReadSucceeds s ∧
      step s = .next (noProgress { s with readScript := s.readScript.tail })) ∨
    (n.toNat ≤ s.cfg.maxBody ∧ n.toNat ≤ s.rxq.length ∧ ReadSucceeds s ∧
      step s = .next (frameDone (dispatchOf s.cfg (classify s.cfg a b (s.rxq.take n.toNat)) { s with
        readScript := s.readScript.tail, rxq := s.rxq.drop n.toNat,
        sb := s.sb.putAll 4 (s.rxq.take n.toNat) }))) := by
  have hguard : oversize s.cfg n = false ↔ n.toNat ≤ s.cfg.maxBody := by
    rw [Bool.eq_false_iff, Ne, oversize_iff, Nat.not_lt]
  rw [step_block hs, ← oversize_iff, ← hguard]
  exact microStep_awaitBody hp ha hb (declaredSize_some hn)

/-- A state at AwaitBody with its header validated has both header slots, and its step is one of the four. -/
theorem step_awaitBody_of_prefix {s : State} {n : Byte} (hs : BlockMoves s) (hv : ValidatedPrefix s)
    (hp : s.pos = .awaitBody) (hn : s.dbs = some n) :
    (s.cfg.maxBody < n.toNat ∧ step s = .next (reject s)) ∨
    (n.toNat ≤ s.cfg.maxBody ∧ s.rxq.length < n.toNat ∧ step s = .next (noProgress s)) ∨
    (n.toNat ≤ s.cfg.maxBody ∧ n.toNat ≤ s.rxq.length ∧ ¬ ReadSucceeds s ∧
      step s = .next (noProgress { s with readScript := s.readScript.tail })) ∨
    (n.toNat ≤ s.cfg.maxBody ∧ n.toNat ≤ s.rxq.length ∧ ReadSucceeds s) := by
  obtain ⟨a, ha, -⟩ := hv.address (.inr (.inr hp))
  obtain ⟨b, hb, -⟩ := hv.subAddress (.inr hp)
  obtain h | h | h | ⟨hfits, hlen, hr, -⟩ := step_awaitBody hs hp ha hb hn
  exacts [.inl h, .inr (.inl h), .inr (.inr (.inl h)), .inr (.inr (.inr ⟨hfits, hlen, hr⟩))]

/-- Settles O12: of the four moves of AwaitBody, the premises leave the waiting one and the failing one. -/
theorem awaitBodyWaitsForWholeBody : Obligations.AwaitBodyWaitsForWholeBody := by
  intro s n hs hv hp hn hfits
  obtain ⟨h, -⟩ | ⟨-, hshort, e⟩ | ⟨-, hlen, -, e⟩ | ⟨-, hlen, hr⟩ := step_awaitBody_of_prefix hs hv hp hn
  · exact absurd h (by omega)
  · exact ⟨fun _ => e, fun h => absurd h (by omega)⟩
  · exact ⟨fun h => absurd h (by omega), fun _ _ => e⟩
  · exact ⟨fun h => absurd h (by omega), fun _ hfail => absurd hr hfail⟩

/-- Settles O13: of the four moves of AwaitBody, the premise leaves the guard. -/
theorem oversizeGuardResets : Obligations.OversizeGuardResets := by
  intro s n hs hv hp hn hbig
  obtain ⟨-, e⟩ | ⟨h, -⟩ | ⟨h, -⟩ | ⟨h, -⟩ := step_awaitBody_of_prefix hs hv hp hn
  · exact e
  all_goals omega

/-! ### Failing reads and waiting (R73, 70_reset_and_hazards.md R125) -/

theorem step_next_micro {s t : State} (hs : BlockMoves s) (h : step s = .next t) : MicroMove s t :=
  microStep_next ((step_block hs).symm.trans h)

/-- Settles O14: a move that reads with success is no move of this state. -/
theorem failedReadLosesNothing : Obligations.FailedReadLosesNothing := by
  intro s t hs hv hfail hstep
  cases step_next_micro hs hstep with
  | waits _ after => exact .inl (.inl after)
  | failed _ after => exact .inl (.inr after)
  | accepted _ _ reads => exact absurd reads hfail
  | rejected _ _ reads => exact absurd reads hfail
  | guarded n body size tooBig after =>
    obtain ⟨m, hm⟩ := hv.size body
    obtain rfl : m = n := (declaredSize_some hm).symm.trans size
    exact .inr ⟨body, ⟨m, hm, (oversize_iff ..).mp tooBig⟩, after⟩
  | framed _ _ _ reads => exact absurd reads hfail

/-- Settles O54: a header position has no byte to test, and a body is too short for a read. -/
theorem waitingBlockStaysWaiting : Obligations.WaitingBlockStaysWaiting := by
  intro s hs hv hquiet
  obtain ⟨hq, hp⟩ | ⟨hp, n, hn, hfits, -, hshort⟩ := hquiet
  · exact (step_header hs (microStep_field hv hp)).1 hq
  · have hmax : n.toNat ≤ s.cfg.maxBody := le_trans hfits (Nat.min_le_left ..)
    exact (awaitBodyWaitsForWholeBody s n hs hv hp hn hmax).1 hshort

/-! ### The pseudocode of the header rules -/

/-- What the header rules have in common: the availability test, the read of one byte, and what is done with it. -/
def headerRule (s : State) (next : Byte → State → Micro) : Micro :=
  if rxAvail s = 0 then .noProgress s
  else
    match readOne s with
    | (none, t) => .noProgress t
    | (some b, t) => next b t

theorem ruleAwaitStart_eq (s : State) : ruleAwaitStart s = headerRule s fun b t =>
    if b = startMarker then .progress { t with pos := .awaitAddress }
    else .progress { t with pos := .awaitStart } := rfl

theorem ruleAwaitAddress_eq (s : State) : ruleAwaitAddress s = headerRule s fun b t =>
    if b = broadcast ∨ b = s.cfg.deviceAddress then .progress { t with sb := t.sb.put 1 b, pos := .awaitSubAddress }
    else .progress { t with pos := .awaitStart } := rfl

theorem ruleAwaitSubAddress_eq (s : State) : ruleAwaitSubAddress s = headerRule s fun b t =>
    if b = 0x00#8 ∨ (s.cfg.minDrive.toNat ≤ b.toNat ∧ b.toNat ≤ s.cfg.maxDrive.toNat) then
      .progress { t with sb := t.sb.put 2 b, pos := .awaitSize }
    else .progress { t with pos := .awaitStart } := rfl

theorem ruleAwaitSize_eq (s : State) : ruleAwaitSize s = headerRule s fun b t =>
    .progress { t with dbs := some b, pos := .awaitBody } := rfl

/-- A header micro-step is its rule, where the rule accepts the bytes its test accepts and rejects the others. -/
theorem fieldStep_eq_headerRule {accept : Byte → Bool} {s : State} {next : Byte → State → Micro}
    (hnext : ∀ b t, t.pos = s.pos → next b t = .progress (if accept b then acceptField b t else reject t)) :
    fieldStep accept s = (headerRule s next).result := by
  cases hq : s.rxq with
  | nil => simp [fieldStep_nil hq, headerRule, rxAvail, hq, Micro.result]
  | cons b rest =>
    by_cases hr : ReadSucceeds s
    · have hread : readOne s = (some b, { s with readScript := s.readScript.tail, rxq := rest }) := by
        simp [readOne, rxRead_ok hr, hq]
      simp only [headerRule, rxAvail, hq, List.length_cons, Nat.add_one_ne_zero, if_false, hread]
      rw [hnext b { s with readScript := s.readScript.tail, rxq := rest } rfl]
      cases hb : accept b with
      | true => exact fieldStep_accepts hq hr hb
      | false => exact fieldStep_rejects hq hr hb
    · simp [fieldStep_fails (by simp [hq]) hr, headerRule, rxAvail, hq, readOne, rxRead_fails hr, Micro.result]

theorem step_eq_ruleAwaitStart {s : State} (hs : BlockMoves s) (hp : s.pos = .awaitStart) :
    step s = (ruleAwaitStart s).result := by
  rw [step_block hs, microStep_awaitStart hp, ruleAwaitStart_eq]
  refine fieldStep_eq_headerRule fun b t ht => ?_
  simp only [acceptField_awaitStart (ht.trans hp), beq_iff_eq, reject]
  split <;> rfl

theorem step_eq_ruleAwaitAddress {s : State} (hs : BlockMoves s) (hp : s.pos = .awaitAddress) :
    step s = (ruleAwaitAddress s).result := by
  rw [step_block hs, microStep_awaitAddress hp, ruleAwaitAddress_eq]
  refine fieldStep_eq_headerRule fun b t ht => ?_
  simp only [acceptField_awaitAddress (ht.trans hp), acceptsAddress_iff, reject]
  split <;> rfl

theorem step_eq_ruleAwaitSubAddress {s : State} (hs : BlockMoves s) (hv : ValidatedPrefix s)
    (hp : s.pos = .awaitSubAddress) : step s = (ruleAwaitSubAddress s).result := by
  obtain ⟨a, ha, -⟩ := hv.address (.inl hp)
  rw [step_block hs, microStep_awaitSubAddress hp ha, ruleAwaitSubAddress_eq]
  refine fieldStep_eq_headerRule fun b t ht => ?_
  simp only [acceptField_awaitSubAddress (ht.trans hp), validSub_iff, reject]
  split <;> rfl

theorem step_eq_ruleAwaitSize {s : State} (hs : BlockMoves s) (hv : ValidatedPrefix s) (hp : s.pos = .awaitSize) :
    step s = (ruleAwaitSize s).result := by
  obtain ⟨a, ha, -⟩ := hv.address (.inr (.inl hp))
  obtain ⟨b, hb, -⟩ := hv.subAddress (.inl hp)
  rw [step_block hs, microStep_awaitSize hp ha hb, ruleAwaitSize_eq]
  refine fieldStep_eq_headerRule fun n t ht => ?_
  simp only [acceptField_awaitSize (ht.trans hp), if_true]

/-! ### The pseudocode of `dispatch` (41_dispatch.md R85) -/

theorem readSlot_address {s : State} {a : Byte} (hp : s.pos = .awaitBody) (ha : s.sb.slot 1 = some a) :
    readSlot true 1 s = .ok a :=
  readSlot_ok ((committed_iff ..).mpr (by simp [hp])) ha

theorem readSlot_subAddress {s : State} {b : Byte} (hp : s.pos = .awaitBody) (hb : s.sb.slot 2 = some b) :
    readSlot true 2 s = .ok b :=
  readSlot_ok ((committed_iff ..).mpr (by simp [hp])) hb

/-- The buffer holds a body that the frame in flight has committed (10_state.md R15, R16). -/
structure HoldsBody (body : List Byte) (s : State) : Prop where
  position : s.pos = .awaitBody
  size : (declaredSize s).toNat = body.length
  slots : ∀ (i : Nat) (h : i < body.length), s.sb.slot (4 + i) = some body[i]

theorem HoldsBody.readSlot {body : List Byte} {s : State} (h : HoldsBody body s) (i : Nat) (hi : i < body.length) :
    readSlot true (4 + i) s = .ok body[i] := by
  refine readSlot_ok ((committed_iff ..).mpr ?_) (h.slots i hi)
  simp only [h.position, h.size]
  exact .inr (.inr ⟨trivial, by omega, by omega⟩)

/-- Committed slots that hold `bytes` are read as `bytes`. -/
theorem readSlots_ok {s : State} (bytes : List Byte) (i : Nat)
    (h : ∀ (k : Nat) (hk : k < bytes.length), readSlot true (i + k) s = .ok bytes[k]) :
    readSlots i bytes.length s = .ok bytes := by
  induction bytes generalizing i with
  | nil => rfl
  | cons b bytes ih =>
    have hhead : readSlot true i s = .ok b := h 0 (by simp)
    have htail : readSlots (i + 1) bytes.length s = .ok bytes :=
      ih (i + 1) fun k hk => by
        rw [show i + 1 + k = i + (k + 1) by omega]
        exact h (k + 1) (Nat.succ_lt_succ hk)
    simp only [List.length_cons, readSlots, hhead, htail]

/-- `dispatch()` on a committed body does what the class of that body does. -/
theorem ruleDispatch_eq {s : State} {a b : Byte} {body : List Byte} (ha : s.sb.slot 1 = some a)
    (hb : s.sb.slot 2 = some b) (h : HoldsBody body s) :
    ruleDispatch s = .ok (dispatchOf s.cfg (classify s.cfg a b body) s) := by
  have hsize : readSize s = .ok (declaredSize s) := readSize_ok h.position
  cases body with
  | nil =>
    have hzero : declaredSize s = 0#8 := BitVec.eq_of_toNat_eq h.size
    simp only [ruleDispatch, hsize, if_pos hzero, dispatchOf_classify_nil]
  | cons cmd payload =>
    have hnonzero : declaredSize s ≠ 0#8 := fun h0 => by simpa [h0] using h.size
    have hcmd : readSlot true 4 s = .ok cmd := h.readSlot 0 (by simp)
    have hpayload : readSlots 5 ((declaredSize s).toNat - 1) s = .ok payload := by
      rw [h.size, List.length_cons, Nat.add_sub_cancel]
      refine readSlots_ok payload 5 fun k hk => ?_
      rw [show 5 + k = 4 + (k + 1) by omega]
      exact h.readSlot (k + 1) (Nat.succ_lt_succ hk)
    simp only [ruleDispatch, hsize, if_neg hnonzero, readSlot_address h.position ha,
      readSlot_subAddress h.position hb, hcmd, hpayload]
    by_cases haddr : a = broadcast
    · subst haddr
      by_cases hping : cmd = s.cfg.pingOpcode
      · subst hping
        rw [if_pos ⟨rfl, rfl⟩, classify_broadcast_ping]; rfl
      · rw [if_neg fun hc => hping hc.2, if_pos rfl, classify_broadcast_message hping]; rfl
    · rw [if_neg fun hc => haddr hc.1, if_neg haddr, classify_device_message _ haddr]; rfl

/-- A body just stored is a body the buffer holds. -/
theorem holdsBody_putAll {s : State} {n : Byte} {body : List Byte} (hp : s.pos = .awaitBody) (hn : s.dbs = some n)
    (hlen : body.length = n.toNat) : HoldsBody body { s with sb := s.sb.putAll 4 body } where
  position := hp
  size := by simp [declaredSize, hn, hlen]
  slots := Memory.slot_putAll_inside body s.sb 4

theorem step_eq_ruleAwaitBody {s : State} (hs : BlockMoves s) (hv : ValidatedPrefix s) (hp : s.pos = .awaitBody) :
    step s = (ruleAwaitBody s).result := by
  obtain ⟨a, ha, -⟩ := hv.address (.inr (.inr hp))
  obtain ⟨b, hb, -⟩ := hv.subAddress (.inr hp)
  obtain ⟨n, hn⟩ := hv.size hp
  simp only [ruleAwaitBody, readSize_ok hp, declaredSize_some hn]
  obtain ⟨hbig, e⟩ | ⟨hfits, hshort, e⟩ | ⟨hfits, hlen, hr, e⟩ | ⟨hfits, hlen, hr, e⟩ := step_awaitBody hs hp ha hb hn
  · rw [e, if_pos hbig]; rfl
  · rw [e, if_neg (Nat.not_lt.mpr hfits), if_pos (show rxAvail s < n.toNat from hshort)]; rfl
  · rw [e, if_neg (Nat.not_lt.mpr hfits), if_neg (show ¬ rxAvail s < n.toNat from Nat.not_lt.mpr hlen),
      rxRead_fails hr]
    rfl
  · have htake : (s.rxq.take n.toNat).length = n.toNat := List.length_take_of_le hlen
    have hcap : (s.rxq.take n.toNat).length ≤ bodyCap s.cfg := by
      have := n.isLt
      simp only [htake, bodyCap]; omega
    have hdispatch := ruleDispatch_eq (a := a) (b := b) (body := s.rxq.take n.toNat)
      (s := { s with readScript := s.readScript.tail, rxq := s.rxq.drop n.toNat,
                     sb := s.sb.putAll 4 (s.rxq.take n.toNat) })
      (by rw [← ha]; exact Memory.slot_putAll_outside _ _ _ _ (by omega))
      (by rw [← hb]; exact Memory.slot_putAll_outside _ _ _ _ (by omega))
      (holdsBody_putAll (s := { s with readScript := s.readScript.tail, rxq := s.rxq.drop n.toNat }) hp hn htake)
    rw [e, if_neg (Nat.not_lt.mpr hfits), if_neg (show ¬ rxAvail s < n.toNat from Nat.not_lt.mpr hlen), rxRead_ok hr]
    simp only [storeBody_ok (s := { s with readScript := s.readScript.tail, rxq := s.rxq.drop n.toNat }) hcap,
      hdispatch]
    rfl

/-- Settles O34: position by position, the step is the rule. -/
theorem stepIsTheRulePseudocode : Obligations.StepIsTheRulePseudocode := by
  intro s hs hv
  unfold ruleStep
  split
  · next hp => exact step_eq_ruleAwaitStart hs hp
  · next hp => exact step_eq_ruleAwaitAddress hs hp
  · next hp => exact step_eq_ruleAwaitSubAddress hs hv hp
  · next hp => exact step_eq_ruleAwaitSize hs hv hp
  · next hp => exact step_eq_ruleAwaitBody hs hv hp

end Sys2Proof.Machine
end

section
/-! What every step keeps: the invariant (10_state.md R18, R22), and the laws of one step that follow from its moves. -/

namespace Sys2Proof.Machine

open Sys2Proof

/-! ### The moves of a step -/

/-- Everything a step can do, with the turn taken off the schedule: a micro-step inside a call, or a move of the
surroundings. -/
theorem StepMove.cases_tail {s t : State} (h : StepMove s t) :
    (s.draining = true ∧ MicroMove { s with turns := s.turns.tail } t) ∨
    t = { s with turns := s.turns.tail } ∨
    (∃ b, t = arrive b { s with turns := s.turns.tail }) ∨
    t = { s with turns := s.turns.tail, draining := true } ∨
    (s.turns.head? = some .hostReset ∧ t = applyReset { s with turns := s.turns.tail }) := by
  have hnil : s.turns = [] → { s with turns := s.turns.tail } = s := fun ht => by rw [ht, List.tail_nil, ← ht]
  cases h with
  | micro turn running move => exact .inl ⟨running, by rwa [hnil turn]⟩
  | idle turn _ after => exact .inr (.inl (by rw [hnil turn, after]))
  | microTurn rest turn running move => exact .inl ⟨running, by rwa [turn]⟩
  | idleTurn rest turn _ after => exact .inr (.inl (by rw [turn, after]; rfl))
  | arrival b rest turn after => exact .inr (.inr (.inl ⟨b, by rw [turn, after]; rfl⟩))
  | called rest turn _ after => exact .inr (.inr (.inr (.inl (by rw [turn, after]; rfl))))
  | reset rest turn after => exact .inr (.inr (.inr (.inr ⟨by rw [turn]; rfl, by rw [turn, after]; rfl⟩)))

/-- A completed frame of a received instruction: its outputs are appended, and `POS` returns to AwaitStart. -/
theorem frameDone_dispatch_received (c : Config) {i : Instr} (hi : i.received = true) (s : State) :
    frameDone (dispatchOf c i s) = { s with
      pos := .awaitStart
      txq := s.txq ++ (outputs c i).flatMap Event.sinkBytes
      evt := s.evt ++ outputs c i } := by
  obtain ⟨es, hshape, hes⟩ := dispatchOf_shape c i s
  rw [hshape, hes hi]
  rfl

theorem frameDone_dispatch_classify (c : Config) (a b : Byte) (body : List Byte) (s : State) :
    frameDone (dispatchOf c (classify c a b body) s) = { s with
      pos := .awaitStart
      txq := s.txq ++ (outputs c (classify c a b body)).flatMap Event.sinkBytes
      evt := s.evt ++ outputs c (classify c a b body) } :=
  frameDone_dispatch_received c (received_classify ..) s

/-! ### The validated header (R18) -/

/-- What is validated is the configuration's and the Parser State's alone. -/
theorem ValidatedPrefix.of_eq {s t : State} (h : ValidatedPrefix s) (hcfg : t.cfg = s.cfg) (hpos : t.pos = s.pos)
    (hdbs : t.dbs = s.dbs) (hsb : t.sb = s.sb) : ValidatedPrefix t := by
  obtain ⟨address, subAddress, size⟩ := h
  exact ⟨by rwa [hpos, hsb, hcfg], by rwa [hpos, hsb, hcfg], by rwa [hpos, hdbs]⟩

/-- At AwaitStart nothing is validated yet. -/
theorem validatedPrefix_awaitStart {s : State} (hp : s.pos = .awaitStart) : ValidatedPrefix s := by
  constructor <;> simp [hp]

/-- An accepted header byte extends what is validated. -/
theorem ValidatedPrefix.acceptField {s : State} {b : Byte} (h : ValidatedPrefix s) (ht : fieldTest s b = true) :
    ValidatedPrefix (acceptField b s) := by
  cases hp : s.pos with
  | awaitStart => rw [acceptField_awaitStart hp]; constructor <;> simp
  | awaitAddress =>
    rw [acceptField_awaitAddress hp]
    simp only [fieldTest, hp] at ht
    exact ⟨fun _ => ⟨b, Memory.slot_put_same .., ht⟩, by simp, by simp⟩
  | awaitSubAddress =>
    rw [acceptField_awaitSubAddress hp]
    simp only [fieldTest, hp] at ht
    obtain ⟨a, ha, haddr⟩ := h.address (.inl hp)
    have hslot : (s.sb.put 2 b).slot 1 = some a := by rw [Memory.slot_put_other _ _ (by decide), ha]
    exact ⟨fun _ => ⟨a, hslot, haddr⟩, fun _ => ⟨b, Memory.slot_put_same .., ht⟩, by simp⟩
  | awaitSize =>
    rw [acceptField_awaitSize hp]
    exact ⟨fun _ => h.address (.inr (.inl hp)), fun _ => h.subAddress (.inl hp), fun _ => ⟨b, rfl⟩⟩
  | awaitBody => simp [fieldTest, hp] at ht

theorem MicroMove.keeps_prefix {s t : State} (h : MicroMove s t) (hv : ValidatedPrefix s) : ValidatedPrefix t := by
  cases h with
  | waits _ after => subst after; exact hv.of_eq rfl rfl rfl rfl
  | failed _ after => subst after; exact hv.of_eq rfl rfl rfl rfl
  | accepted b rest _ _ _ test after =>
    subst after
    have hread : ValidatedPrefix (afterRead 1 s) := hv.of_eq rfl rfl rfl rfl
    exact hread.acceptField test
  | rejected _ _ _ _ _ _ after => subst after; exact validatedPrefix_awaitStart rfl
  | guarded _ _ _ _ after => subst after; exact validatedPrefix_awaitStart rfl
  | framed _ _ _ _ _ _ _ _ _ _ after => subst after; exact validatedPrefix_awaitStart rfl

/-! ### The scratch buffer (R14, R15) -/

theorem BufferSound.of_eq {s t : State} (h : BufferSound s) (hcfg : t.cfg = s.cfg) (hsb : t.sb = s.sb) :
    BufferSound t := by
  obtain ⟨canonical, slots⟩ := h
  exact ⟨by rwa [hsb], by rwa [hsb, hcfg]⟩

/-- A store to a header slot keeps the buffer sound. -/
theorem BufferSound.put {s t : State} {k : Nat} {b : Byte} (h : BufferSound s) (hk : k = 1 ∨ k = 2)
    (hcfg : t.cfg = s.cfg) (hsb : t.sb = s.sb.put k b) : BufferSound t := by
  refine ⟨hsb ▸ Memory.put_wf _ _ _ h.canonical, fun a v hv => ?_⟩
  rw [hsb, Memory.slot_put] at hv
  split at hv
  · simp only [slotCount, bodySlot]; omega
  · rw [hcfg]; exact h.slots a v hv

/-- A body that fits keeps the buffer sound. -/
theorem BufferSound.putAll {s t : State} {body : List Byte} (h : BufferSound s) (hfits : body.length ≤ bodyCap s.cfg)
    (hcfg : t.cfg = s.cfg) (hsb : t.sb = s.sb.putAll 4 body) : BufferSound t := by
  refine ⟨hsb ▸ Memory.putAll_wf _ _ _ h.canonical, fun a v hv => ?_⟩
  rw [hsb] at hv
  rw [hcfg]
  by_cases hin : a < 4 ∨ 4 + body.length ≤ a
  · rw [Memory.slot_putAll_outside _ _ _ _ hin] at hv
    exact h.slots a v hv
  · simp only [slotCount, bodySlot]; omega

theorem BufferSound.acceptField {s : State} (h : BufferSound s) (b : Byte) : BufferSound (acceptField b s) := by
  cases hp : s.pos with
  | awaitStart => rw [acceptField_awaitStart hp]; exact h.of_eq rfl rfl
  | awaitAddress => rw [acceptField_awaitAddress hp]; exact h.put (.inl rfl) rfl rfl
  | awaitSubAddress => rw [acceptField_awaitSubAddress hp]; exact h.put (.inr rfl) rfl rfl
  | awaitSize => rw [acceptField_awaitSize hp]; exact h.of_eq rfl rfl
  | awaitBody => simpa only [Machine.acceptField, hp] using h

theorem MicroMove.keeps_buffer {s t : State} (h : MicroMove s t) (hbuf : BufferSound s) : BufferSound t := by
  cases h with
  | waits _ after => subst after; exact hbuf.of_eq rfl rfl
  | failed _ after => subst after; exact hbuf.of_eq rfl rfl
  | accepted b rest _ _ _ _ after =>
    subst after
    have hread : BufferSound (afterRead 1 s) := hbuf.of_eq rfl rfl
    exact hread.acceptField b
  | rejected _ _ _ _ _ _ after => subst after; exact hbuf.of_eq rfl rfl
  | guarded _ _ _ _ after => subst after; exact hbuf.of_eq rfl rfl
  | framed a b n _ _ _ _ _ fits bytes after =>
    rw [frameDone_dispatch_classify] at after
    subst after
    have htake : (s.rxq.take n.toNat).length = n.toNat := List.length_take_of_le bytes
    exact hbuf.putAll (htake.symm ▸ fits) rfl rfl

/-! ### The history (R22, R41) -/

theorem length_outputs_classify (c : Config) (a b : Byte) (body : List Byte) :
    (outputs c (classify c a b body)).length ≤ 1 := by
  cases classify c a b body <;> simp [outputs]

/-- What a body of an accepted frame outputs is an event the rules can produce (95_test_vectors.md T1, T3, T4). -/
theorem sound_outputs_classify {c : Config} {a b : Byte} {body : List Byte} (hsub : validSub c b = true)
    (hfits : body.length ≤ bodyCap c) : ∀ e ∈ outputs c (classify c a b body), e.sound c := by
  cases body with
  | nil => simp only [classify]; split <;> exact nofun
  | cons cmd payload =>
    by_cases haddr : a = broadcast
    · subst haddr
      by_cases hcmd : cmd = c.pingOpcode
      · subst hcmd
        simp [classify_broadcast_ping, outputs, Event.sound]
      · simpa [classify_broadcast_message hcmd, outputs, Event.sound] using ⟨hcmd, hfits⟩
    · simpa [classify_device_message c haddr, outputs, Event.sound] using ⟨hsub, hfits⟩

/-- A frame has been completed: its body is in the buffer, its outputs in the history, their bytes on the sink. -/
structure FrameCompleted (s t : State) (a b n : Byte) : Prop where
  position : s.pos = .awaitBody
  done : t.pos = .awaitStart
  subAddress : s.sb.slot 2 = some b
  size : declaredSize s = n
  fits : n.toNat ≤ bodyCap s.cfg
  bytes : n.toNat ≤ s.rxq.length
  buffer : t.sb = s.sb.putAll 4 (s.rxq.take n.toNat)
  events : t.evt = s.evt ++ outputs s.cfg (classify s.cfg a b (s.rxq.take n.toNat))
  sink : t.txq = s.txq ++ (outputs s.cfg (classify s.cfg a b (s.rxq.take n.toNat))).flatMap Event.sinkBytes

/-- A micro-step outputs nothing unless it completes a frame. -/
theorem MicroMove.output {s t : State} (h : MicroMove s t) :
    (t.evt = s.evt ∧ t.txq = s.txq) ∨ ∃ a b n, FrameCompleted s t a b n := by
  cases h with
  | waits _ after => subst after; exact .inl ⟨rfl, rfl⟩
  | failed _ after => subst after; exact .inl ⟨rfl, rfl⟩
  | accepted b rest _ _ _ _ after =>
    obtain ⟨-, -, htxq, hevt, -⟩ := acceptField_fields b (afterRead 1 s)
    exact .inl ⟨after ▸ hevt, after ▸ htxq⟩
  | rejected _ _ _ _ _ _ after => subst after; exact .inl ⟨rfl, rfl⟩
  | guarded _ _ _ _ after => subst after; exact .inl ⟨rfl, rfl⟩
  | framed a b n _ body _ subAddress size fits bytes after =>
    rw [frameDone_dispatch_classify] at after
    subst after
    exact .inr ⟨a, b, n, body, rfl, subAddress, size, fits, bytes, rfl, rfl, rfl⟩

/-- A micro-step writes neither the configuration nor the schedule, and asks the oracle at most once. -/
theorem MicroMove.leaves {s t : State} (h : MicroMove s t) :
    t.cfg = s.cfg ∧ t.turns = s.turns ∧ (t.readScript = s.readScript ∨ t.readScript = s.readScript.tail) := by
  cases h with
  | waits _ after => subst after; exact ⟨rfl, rfl, .inl rfl⟩
  | failed _ after => subst after; exact ⟨rfl, rfl, .inr rfl⟩
  | accepted b rest _ _ _ _ after =>
    obtain ⟨hcfg, -, -, -, -, hscript, hturns⟩ := acceptField_fields b (afterRead 1 s)
    exact ⟨after ▸ hcfg, after ▸ hturns, .inr (after ▸ hscript)⟩
  | rejected _ _ _ _ _ _ after => subst after; exact ⟨rfl, rfl, .inr rfl⟩
  | guarded _ _ _ _ after => subst after; exact ⟨rfl, rfl, .inl rfl⟩
  | framed _ _ _ _ _ _ _ _ _ _ after =>
    rw [frameDone_dispatch_classify] at after
    subst after
    exact ⟨rfl, rfl, .inr rfl⟩

theorem MicroMove.cfg_eq {s t : State} (h : MicroMove s t) : t.cfg = s.cfg := h.leaves.1

theorem MicroMove.turns_eq {s t : State} (h : MicroMove s t) : t.turns = s.turns := h.leaves.2.1

/-- Events that can be produced, with their bytes, keep the history sound. -/
theorem HistorySound.append {s t : State} {es : List Event} (h : HistorySound s) (hcfg : t.cfg = s.cfg)
    (hevt : t.evt = s.evt ++ es) (htxq : t.txq = s.txq ++ es.flatMap Event.sinkBytes)
    (hes : ∀ e ∈ es, e.sound s.cfg) : HistorySound t := by
  refine ⟨by rw [htxq, hevt, h.sink, List.flatMap_append], fun e he => ?_⟩
  rw [hevt, List.mem_append] at he
  rw [hcfg]
  exact he.elim (h.events e) (hes e)

theorem MicroMove.keeps_history {s t : State} (h : MicroMove s t) (hv : ValidatedPrefix s) (hh : HistorySound s) :
    HistorySound t := by
  obtain ⟨hevt, htxq⟩ | ⟨a, b, n, hf⟩ := h.output
  · exact hh.append (es := []) h.cfg_eq (by simp [hevt]) (by simp [htxq]) nofun
  · obtain ⟨b', hb', hsub⟩ := hv.subAddress (.inr hf.position)
    obtain rfl : b' = b := Option.some.inj (hb'.symm.trans hf.subAddress)
    have hbody : (s.rxq.take n.toNat).length ≤ bodyCap s.cfg := by
      rw [List.length_take_of_le hf.bytes]; exact hf.fits
    exact hh.append h.cfg_eq hf.events hf.sink (sound_outputs_classify hsub hbody)

/-! ### Progress (R66, R74) -/

/-- A micro-step ends the call and changes at most the oracle beside that, or it goes on: then it has taken at least
one byte from the head of the source, or it has left AwaitBody. Where no read fails, it ends the call only for bytes. -/
theorem MicroMove.progress {s t : State} (h : MicroMove s t) :
    ((∃ script, t = { s with draining := false, readScript := script }) ∧
      (ReadSucceeds s → ValidatedPrefix s → Quiescent s)) ∨
    (t.draining = s.draining ∧
      ((∃ n, 1 ≤ n ∧ n ≤ s.rxq.length ∧ t.rxq = s.rxq.drop n) ∨
        (t.rxq = s.rxq ∧ s.pos = .awaitBody ∧ t.pos = .awaitStart))) := by
  cases h with
  | waits quiet after => exact .inl ⟨⟨s.readScript, after⟩, fun _ => quiet⟩
  | failed fails after => exact .inl ⟨⟨s.readScript.tail, after⟩, fun hr => absurd hr fails⟩
  | accepted b rest _ bytes _ _ after =>
    obtain ⟨-, hrxq, -, -, hdraining, -⟩ := acceptField_fields b (afterRead 1 s)
    exact .inr ⟨by rw [after, hdraining]; rfl, .inl ⟨1, le_rfl, by simp [bytes], by rw [after, hrxq]; rfl⟩⟩
  | rejected b rest _ bytes _ _ after =>
    exact .inr ⟨by rw [after]; rfl, .inl ⟨1, le_rfl, by simp [bytes], by rw [after]; rfl⟩⟩
  | guarded n body _ _ after => exact .inr ⟨by rw [after]; rfl, .inr ⟨by rw [after]; rfl, body, by rw [after]; rfl⟩⟩
  | framed a b n _ body _ _ _ _ bytes after =>
    rw [frameDone_dispatch_classify] at after
    subst after
    refine .inr ⟨rfl, ?_⟩
    by_cases hn : n.toNat = 0
    · exact .inr ⟨by simp [afterRead, hn], body, rfl⟩
    · exact .inl ⟨n.toNat, Nat.pos_of_ne_zero hn, bytes, rfl⟩

/-- A micro-step never makes the source longer. -/
theorem MicroMove.rxq_length_le {s t : State} (h : MicroMove s t) : t.rxq.length ≤ s.rxq.length := by
  obtain ⟨⟨_, rfl⟩, -⟩ | ⟨-, ⟨n, -, -, hdrop⟩ | ⟨hsame, -⟩⟩ := h.progress
  · exact le_rfl
  · rw [hdrop, List.length_drop]; omega
  · rw [hsame]

/-! ### The invariant -/

/-- The invariant does not speak of the call, the oracle or the schedule. -/
theorem Inv.withControl {s : State} (h : Inv s) (draining : Bool) (script : List Bool) (ts : List Turn) :
    Inv { s with draining := draining, readScript := script, turns := ts } where
  legal := h.legal
  validated := h.validated.of_eq rfl rfl rfl rfl
  buffer := h.buffer.of_eq rfl rfl
  history := ⟨h.history.sink, h.history.events⟩
  source := h.source

theorem Inv.microMove {s t : State} (h : Inv s) (hm : MicroMove s t) : Inv t where
  legal := by rw [hm.cfg_eq]; exact h.legal
  validated := hm.keeps_prefix h.validated
  buffer := hm.keeps_buffer h.buffer
  history := hm.keeps_history h.validated h.history
  source := fun k hk => le_trans hm.rxq_length_le (h.source k (hm.cfg_eq ▸ hk))

/-- An arrival is stored only where there is room (20_memory.md R30). -/
theorem arrive_length_le {s : State} {b : Byte} {k : Nat} (hk : s.cfg.rxCap = some k) (h : s.rxq.length ≤ k) :
    (arrive b s).rxq.length ≤ k := by
  unfold arrive
  split
  · next hroom =>
    have hlt : s.rxq.length < k := by simpa [hasRoom, hk] using hroom
    simpa using hlt
  · exact h

theorem Inv.arrive {s : State} (h : Inv s) (b : Byte) : Inv (arrive b s) where
  legal := by rw [arrive_cfg]; exact h.legal
  validated := h.validated.of_eq (arrive_cfg ..) (arrive_pos ..) (arrive_dbs ..) (arrive_sb ..)
  buffer := h.buffer.of_eq (arrive_cfg ..) (arrive_sb ..)
  history := ⟨by rw [arrive_txq, arrive_evt]; exact h.history.sink,
    by rw [arrive_evt, arrive_cfg]; exact h.history.events⟩
  source := fun k hk => by
    rw [arrive_cfg] at hk
    exact arrive_length_le hk (h.source k hk)

theorem Inv.applyReset {s : State} (h : Inv s) : Inv (applyReset s) where
  legal := h.legal
  validated := validatedPrefix_awaitStart rfl
  buffer := h.buffer.of_eq rfl rfl
  history := ⟨h.history.sink, h.history.events⟩
  source := h.source

/-- Settles O35: each move of a step keeps the invariant. -/
theorem stepKeepsInvariant : Obligations.StepKeepsInvariant := by
  intro s t h hstep
  have hrest : Inv { s with turns := s.turns.tail } := h.withControl s.draining s.readScript s.turns.tail
  obtain ⟨-, hm⟩ | rfl | ⟨b, rfl⟩ | rfl | ⟨-, rfl⟩ := (step_next hstep).2.cases_tail
  · exact hrest.microMove hm
  · exact hrest
  · exact hrest.arrive b
  · exact h.withControl true s.readScript s.turns.tail
  · exact hrest.applyReset

/-- Settles O36: nothing is written, validated or output yet at power-up. -/
theorem powerUpMeetsInvariant : Obligations.PowerUpMeetsInvariant := by
  have hpower : ∀ (c : Config) (held : List Byte), c.wf = true → (∀ k, c.rxCap = some k → held.length ≤ k) →
      Inv (State.powerUp c held) := fun c held hlegal hsource =>
    ⟨hlegal, validatedPrefix_awaitStart rfl, ⟨rfl, nofun⟩, ⟨rfl, nofun⟩, hsource⟩
  exact ⟨hpower Config.default [] rfl fun _ _ => Nat.zero_le _, hpower⟩

/-- Settles O37: the values are those `State.powerUp` writes out. -/
theorem powerUpValues : Obligations.PowerUpValues :=
  fun _ _ => ⟨rfl, rfl, fun _ => rfl, rfl, rfl, rfl, rfl, rfl⟩

/-! ### Laws of one step -/

/-- Settles O38: no move writes the configuration. -/
theorem configurationIsConstant : Obligations.ConfigurationIsConstant := by
  intro s t hstep
  obtain ⟨-, hm⟩ | rfl | ⟨b, rfl⟩ | rfl | ⟨-, rfl⟩ := (step_next hstep).2.cases_tail
  · exact hm.cfg_eq
  · rfl
  · exact arrive_cfg ..
  · rfl
  · rfl

/-- A micro-step that moves `POS` moves it by the table of R12. -/
theorem MicroMove.pos_moves {s t : State} (h : MicroMove s t) (hne : t.pos ≠ s.pos) :
    (s.pos, t.pos) ∈ positionMoves := by
  cases h with
  | waits _ after => exact absurd (by rw [after]; rfl) hne
  | failed _ after => exact absurd (by rw [after]; rfl) hne
  | accepted b rest _ _ header _ after =>
    have hpos : (afterRead 1 s).pos = s.pos := rfl
    subst after
    cases hp : s.pos with
    | awaitStart => rw [acceptField_awaitStart (hpos.trans hp)]; simp [positionMoves]
    | awaitAddress => rw [acceptField_awaitAddress (hpos.trans hp)]; simp [positionMoves]
    | awaitSubAddress => rw [acceptField_awaitSubAddress (hpos.trans hp)]; simp [positionMoves]
    | awaitSize => rw [acceptField_awaitSize (hpos.trans hp)]; simp [positionMoves]
    | awaitBody => exact absurd hp header
  | rejected b rest _ _ header test after =>
    subst after
    rw [reject_pos] at hne ⊢
    cases hp : s.pos with
    | awaitSize => simp [fieldTest, hp] at test
    | awaitBody => exact absurd hp header
    | awaitStart | awaitAddress | awaitSubAddress => simp [positionMoves]
  | guarded n body _ _ after => subst after; rw [body, reject_pos]; decide
  | framed a b n _ body _ _ _ _ _ after => subst after; rw [body, frameDone_pos]; decide

/-- Settles O39: micro-steps move `POS` by the table, the reset input sets it, the other turns leave it. -/
theorem positionMovesByTheTable : Obligations.PositionMovesByTheTable := by
  intro s t hstep hne
  obtain ⟨-, hm⟩ | rfl | ⟨b, rfl⟩ | rfl | ⟨hreset, rfl⟩ := (step_next hstep).2.cases_tail
  · exact .inl (hm.pos_moves hne)
  · exact absurd rfl hne
  · exact absurd (arrive_pos ..) hne
  · exact absurd rfl hne
  · exact .inr ⟨hreset, rfl⟩

/-- A step outputs nothing, or it is a micro-step of the running call that completes a frame. -/
theorem step_output {s t : State} (hstep : step s = .next t) :
    (t.evt = s.evt ∧ t.txq = s.txq) ∨
    (s.draining = true ∧ ∃ a b n, FrameCompleted { s with turns := s.turns.tail } t a b n) := by
  obtain ⟨hrun, hm⟩ | rfl | ⟨b, rfl⟩ | rfl | ⟨-, rfl⟩ := (step_next hstep).2.cases_tail
  · exact hm.output.imp_right fun hf => ⟨hrun, hf⟩
  · exact .inl ⟨rfl, rfl⟩
  · exact .inl ⟨arrive_evt .., arrive_txq ..⟩
  · exact .inl ⟨rfl, rfl⟩
  · exact .inl ⟨rfl, rfl⟩

/-- Settles O40: the events of a completed frame are the outputs of one class. -/
theorem historyGrowsByOneEvent : Obligations.HistoryGrowsByOneEvent := by
  intro s t hstep
  obtain ⟨hevt, htxq⟩ | ⟨hrun, a, b, n, hf⟩ := step_output hstep
  · exact ⟨[], by simp, by simp [hevt], by simp [htxq], by simp⟩
  · exact ⟨_, length_outputs_classify .., hf.events, hf.sink, fun _ => ⟨hrun, hf.position, hf.done⟩⟩

/-- Settles O42: a step that ends the call has changed nothing but the call and the oracle. -/
theorem noProgressChangesNothing : Obligations.NoProgressChangesNothing := by
  intro s t hs hstep hstop
  obtain ⟨⟨_, rfl⟩, -⟩ | ⟨hsame, -⟩ := (step_next_micro hs hstep).progress
  · exact ⟨rfl, rfl, rfl, rfl, rfl, rfl⟩
  · exact absurd (hstop.symm.trans (hsame.trans hs.running)) Bool.false_ne_true

/-- Settles O43: a step that does not end the call has gone on. -/
theorem progressConsumesOrCompletes : Obligations.ProgressConsumesOrCompletes := by
  intro s t hs hstep hrun
  obtain ⟨⟨_, rfl⟩, -⟩ | ⟨-, hprogress⟩ := (step_next_micro hs hstep).progress
  · exact absurd hrun Bool.false_ne_true
  · exact hprogress

/-! ### The payload delivered (20_memory.md R36) -/

/-- A body that outputs a message is the message's command and payload. -/
theorem body_of_message {c : Config} {a b sub cmd : Byte} {body payload : List Byte}
    (h : outputs c (classify c a b body) = [.sys cmd payload] ∨
      outputs c (classify c a b body) = [.dev sub cmd payload]) : body = cmd :: payload := by
  have hbody := body_classify c a b body
  cases hi : classify c a b body <;> rw [hi] at h hbody <;> simp_all [outputs, Instr.body]

/-- Settles O26: the body stored from slot 4 on is the command and the payload of the event. -/
theorem deliveredPayloadIsTheBuffer : Obligations.DeliveredPayloadIsTheBuffer := by
  intro s t hs hv hstep sub cmd payload hevt
  obtain ⟨hsame, -⟩ | ⟨a, b, n, hf⟩ := (step_next_micro hs hstep).output
  · simp [hsame] at hevt
  · rw [hf.events, List.append_cancel_left_eq, List.append_cancel_left_eq] at hevt
    have hbody : s.rxq.take n.toNat = cmd :: payload := body_of_message hevt
    have hlen : n.toNat = payload.length + 1 := by
      rw [← List.length_take_of_le hf.bytes, hbody, List.length_cons]
    obtain ⟨m, hm⟩ := hv.size hf.position
    obtain rfl : m = n := (declaredSize_some hm).symm.trans hf.size
    have hslot : ∀ (i : Nat) (hi : i < (cmd :: payload).length), t.sb.slot (4 + i) = some (cmd :: payload)[i] := by
      rw [hf.buffer, hbody]
      exact Memory.slot_putAll_inside (cmd :: payload) s.sb 4
    refine ⟨hf.position, by rw [hm, Option.map_some, hlen], hslot 0 (by simp), fun k hk => ?_⟩
    rw [show 5 + k = 4 + (k + 1) by omega]
    exact hslot (k + 1) (Nat.succ_lt_succ hk)

/-! ### Turns of the schedule -/

theorem step_turn {s : State} {turn : Turn} {rest : List Turn} (hlegal : s.cfg.wf = true)
    (hturn : s.turns = turn :: rest) : step s = takeTurn turn { s with turns := rest } := by
  simp only [step, stepTurn, hlegal, hturn, if_true]

theorem step_no_turn {s : State} (hlegal : s.cfg.wf = true) (hturn : s.turns = []) : step s = blockTurn s := by
  simp only [step, stepTurn, hlegal, hturn, if_true]

theorem callDrain_stopped {s : State} (h : s.draining = false) : callDrain s = .next { s with draining := true } := by
  simp [callDrain, h]

theorem callDrain_running {s : State} (h : s.draining = true) : callDrain s = .refused .reentrantDrain := by
  simp [callDrain, h]

theorem blockTurn_answers {s : State} (hv : ValidatedPrefix s) : ∃ t, blockTurn s = .next t := by
  unfold blockTurn
  split
  · obtain ⟨t, ht, -⟩ := microStep_moves hv
    exact ⟨t, ht⟩
  · exact ⟨s, rfl⟩

/-- Settles O44: the block's turn answers by its validated header, and only the two excluded turns are refused. -/
theorem soundStatesNeverStop : Obligations.SoundStatesNeverStop := by
  intro s h hconfigure hnested
  cases hturns : s.turns with
  | nil => rw [step_no_turn h.legal hturns]; exact blockTurn_answers h.validated
  | cons turn rest =>
    rw [step_turn h.legal hturns]
    rw [hturns] at hconfigure hnested
    cases turn with
    | block => exact blockTurn_answers (h.validated.of_eq rfl rfl rfl rfl)
    | sender b => exact ⟨_, rfl⟩
    | hostDrain =>
      have hstopped : s.draining = false := Bool.eq_false_iff.mpr fun hrun => hnested ⟨rfl, hrun⟩
      exact ⟨_, callDrain_stopped (s := { s with turns := rest }) hstopped⟩
    | hostReset => exact ⟨_, rfl⟩
    | hostConfigure c => exact absurd rfl (hconfigure c)

/-- Settles O45: the three refusals, each at its own test. -/
theorem violationsAreRefused : Obligations.ViolationsAreRefused := by
  refine ⟨fun s hillegal => ?_, fun s ts hlegal hturn hrun => ?_, fun s c ts hlegal hturn => ?_⟩
  · simp [step, stepTurn, hillegal]
  · rw [step_turn hlegal hturn, takeTurn]
    exact callDrain_running hrun
  · exact step_turn hlegal hturn

/-- Settles O46: the reset input is that update. -/
theorem resetMovesOnlyPosition : Obligations.ResetMovesOnlyPosition :=
  fun _ _ hlegal hturn => step_turn hlegal hturn

/-- An arrival where the source has room goes to its tail. -/
theorem arrive_room {s : State} (b : Byte) (h : ∀ k, s.cfg.rxCap = some k → s.rxq.length < k) :
    arrive b s = { s with rxq := s.rxq ++ [b] } := by
  have hroom : hasRoom s = true := by
    unfold hasRoom
    split
    · rfl
    · next k hk => exact decide_eq_true (h k hk)
  rw [arrive, if_pos hroom]

/-- An arrival at a full source is lost. -/
theorem arrive_full {s : State} (b : Byte) {k : Nat} (hk : s.cfg.rxCap = some k) (h : k ≤ s.rxq.length) :
    arrive b s = s := by
  have hroom : hasRoom s = false := by simpa [hasRoom, hk] using h
  rw [arrive, hroom, if_neg Bool.false_ne_true]

/-- Settles O47: an arrival by the room there is, a call from outside a call, and the idle turn. -/
theorem surroundingsMove : Obligations.SurroundingsMove := by
  intro s ts b hlegal
  refine ⟨fun hturn hroom => ?_, fun hturn k hk hfull => ?_, fun hturn hstopped => ?_, fun hturn hstopped => ?_⟩
  · rw [step_turn hlegal hturn, takeTurn]
    exact congrArg _ (arrive_room (s := { s with turns := ts }) b hroom)
  · rw [step_turn hlegal hturn, takeTurn]
    exact congrArg _ (arrive_full (s := { s with turns := ts }) b hk hfull)
  · rw [step_turn hlegal hturn, takeTurn]
    exact callDrain_stopped hstopped
  · simp [step_no_turn hlegal hturn, blockTurn, hstopped]

/-! ### Along a run (20_memory.md R32) -/

/-- What every step keeps holds at the end of a run. -/
theorem run_keeps {P : State → Prop} (hkeep : ∀ s t, P s → step s = .next t → P t) {k : Nat} {s t : State}
    (hs : P s) (hrun : core.run k s = .next t) : P t := by
  induction k generalizing s with
  | zero => cases hrun; exact hs
  | succ k ih =>
    obtain ⟨u, hstep, hrest⟩ := run_succ_inv hrun
    exact ih (hkeep s u hs hstep) hrest

/-- The bytes of events the rules can produce are whole Pong frames. -/
theorem sinkBytes_of_sound {c : Config} {es : List Event} (h : ∀ e ∈ es, e.sound c) :
    ∃ m, es.flatMap Event.sinkBytes = (List.replicate m (pongFrame c)).flatten := by
  induction es with
  | nil => exact ⟨0, rfl⟩
  | cons e es ih =>
    obtain ⟨he, hes⟩ := List.forall_mem_cons.mp h
    obtain ⟨m, hm⟩ := ih hes
    rw [List.flatMap_cons, hm]
    cases e with
    | tx bytes =>
      obtain rfl : bytes = pongFrame c := he
      exact ⟨m + 1, rfl⟩
    | sys cmd payload => exact ⟨m, rfl⟩
    | dev sub cmd payload => exact ⟨m, rfl⟩

/-- Settles O41: the sink is the bytes of a history of events that can be produced, and the configuration stays. -/
theorem sinkHoldsOnlyPongs : Obligations.SinkHoldsOnlyPongs := by
  intro c held ts k t hlegal hsource hrun
  have hstart : Inv { State.powerUp c held with turns := ts } :=
    (powerUpMeetsInvariant.2 c held hlegal hsource).withControl false [] ts
  obtain ⟨hinv, hcfg⟩ : Inv t ∧ t.cfg = c :=
    run_keeps (P := fun u => Inv u ∧ u.cfg = c)
      (fun u v hu hstep => ⟨stepKeepsInvariant u v hu.1 hstep, (configurationIsConstant u v hstep).trans hu.2⟩)
      ⟨hstart, rfl⟩ hrun
  rw [hinv.history.sink, ← hcfg]
  exact sinkBytes_of_sound hinv.history.events

end Sys2Proof.Machine
end

section
/-! Executions: how each instruction completes, what it leaves unchanged, and when it makes no progress. -/

namespace Sys2Proof.Machine

open Sys2Proof

/-! ### The instructions that complete (40_framer.md R71) -/

/-- Settles O19: each execution is `completeFrame` with the dispatch of its class. -/
theorem systemFramesComplete : Obligations.SystemFramesComplete := by
  intro s sub cmd payload hr
  refine ⟨fun hlen hfits => ⟨?_, ?_⟩, completeFrame_ok (body := []) hr (Nat.zero_le _) (Nat.zero_le _)⟩
  · exact completeFrame_ok (body := cmd :: payload) hr hlen hfits
  · exact completeFrame_ok (body := cmd :: payload) hr hlen hfits

/-- Settles O20: each execution is `completeFrame` with the dispatch of its class. -/
theorem deviceFramesComplete : Obligations.DeviceFramesComplete := by
  intro s addr sub cmd payload hr
  refine ⟨fun hlen hfits => ?_, completeFrame_ok (body := []) hr (Nat.zero_le _) (Nat.zero_le _)⟩
  exact completeFrame_ok (body := cmd :: payload) hr hlen hfits

/-- Settles O22: the meaning of `PONG` is one `TxWrite`. -/
theorem pongIsWrittenWhole : Obligations.PongIsWrittenWhole := fun _ _ _ _ _ => rfl

/-! ### What an execution leaves unchanged -/

/-- Settles O23: an execution that has done more than end the call has left the call as it was. -/
theorem endedCallChangesNothingElse : Obligations.EndedCallChangesNothingElse := by
  intro i s t hi h hcall
  obtain rfl | rfl | ⟨-, -, rfl⟩ | ⟨-, rfl⟩ | ⟨-, -, -, rfl⟩ := exec_next hi h
  · exact .inl rfl
  · exact .inr rfl
  · exact absurd rfl hcall
  · exact absurd rfl hcall
  · rw [frameDone_dispatch_received s.cfg hi] at hcall
    exact absurd rfl hcall

/-- Only `SYS_PING` puts bytes on the sink. -/
theorem sinkBytes_outputs {i : Instr} (hi : i.received = true) (hping : ∀ sub cmd payload, i ≠ .sysPing sub cmd payload)
    (c : Config) : (outputs c i).flatMap Event.sinkBytes = [] := by
  cases i with
  | sysPing sub cmd payload => exact absurd rfl (hping sub cmd payload)
  | pong => exact nomatch hi
  | _ => rfl

/-- Settles O24: the executions that take no body change no slot; the one that does writes its body's slots. -/
theorem frameClassesTouchOnlyTheBody : Obligations.FrameClassesTouchOnlyTheBody := by
  intro i s t hi hbody h
  obtain rfl | rfl | ⟨hpos, -⟩ | ⟨-, rfl⟩ | ⟨-, -, hlen, ht⟩ := exec_next hi h
  · exact ⟨rfl, rfl, rfl, fun _ _ => rfl, .inl rfl, fun _ => rfl, .inl rfl⟩
  · exact ⟨rfl, rfl, rfl, fun _ _ => rfl, .inl rfl, fun _ => rfl, .inl rfl⟩
  · exact absurd hbody hpos
  · exact ⟨rfl, rfl, rfl, fun _ _ => rfl, .inl rfl, fun _ => rfl, .inl rfl⟩
  · rw [frameDone_dispatch_received s.cfg hi] at ht
    subst ht
    refine ⟨rfl, rfl, rfl, fun a ha => ?_, .inr rfl, fun hping => ?_, .inr rfl⟩
    · refine Memory.slot_putAll_outside _ _ _ _ ?_
      rw [List.length_take_of_le hlen]; omega
    · exact (congrArg (s.txq ++ ·) (sinkBytes_outputs hi hping s.cfg)).trans (List.append_nil _)

/-- Settles O25: a rejected input takes no body, so its execution is a reject or no progress. -/
theorem rejectsTouchNoData : Obligations.RejectsTouchNoData := by
  intro i s t hreject h
  have hi : i.received = true := by
    obtain hpos | ⟨addr, sub, n, rfl⟩ := hreject
    · cases i with
      | pong => exact absurd rfl hpos
      | _ => rfl
    · rfl
  obtain rfl | rfl | ⟨-, -, rfl⟩ | ⟨-, rfl⟩ | ⟨hbody, hsize, -⟩ := exec_next hi h
  · exact ⟨fun _ => rfl, rfl, rfl, rfl, rfl, rfl, .inl rfl, .inl rfl⟩
  · exact ⟨fun _ => rfl, rfl, rfl, rfl, rfl, rfl, .inl rfl, .inl rfl⟩
  · exact ⟨fun _ => rfl, rfl, rfl, rfl, rfl, rfl, .inr rfl, .inr (List.drop_one ..)⟩
  · exact ⟨fun _ => rfl, rfl, rfl, rfl, rfl, rfl, .inr rfl, .inl rfl⟩
  · obtain hpos | ⟨addr, sub, n, rfl⟩ := hreject
    · exact absurd hbody hpos
    · exact absurd rfl (hsize addr sub n)

/-- An execution that reads opens with the availability test and the read of its own bytes (R67 to R71). -/
theorem exec_reads {i : Instr} (hi : i.received = true) (hsize : ∀ addr sub n, i ≠ .rejSize addr sub n) (s : State) :
    ∃ next, exec i s = readThen (if completesAt i = .awaitBody then i.body.length else 1) s next := by
  cases i with
  | rejSize addr sub n => exact absurd rfl (hsize addr sub n)
  | pong => exact nomatch hi
  | _ => exact ⟨_, rfl⟩

/-- Settles O59: `readThen` without the bytes, or with a read that fails. -/
theorem shortOrFailedReadMakesNoProgress : Obligations.ShortOrFailedReadMakesNoProgress := by
  rintro i s need hi hsize rfl
  obtain ⟨next, hexec⟩ := exec_reads hi hsize s
  rw [hexec]
  exact ⟨readThen_short, readThen_fails⟩

/-- Settles O58: a slot is committed exactly where the frame in flight has written it (`committed_iff`). -/
theorem readsOutsideTheFrameFault : Obligations.ReadsOutsideTheFrameFault := by
  intro s slot bodyIn hsize
  have hcommitted : committed bodyIn s slot = true ↔
      (slot = 1 ∧ (s.pos = .awaitSubAddress ∨ s.pos = .awaitSize ∨ s.pos = .awaitBody)) ∨
      (slot = 2 ∧ (s.pos = .awaitSize ∨ s.pos = .awaitBody)) ∨
      (bodyIn = true ∧ s.pos = .awaitBody ∧ ∃ n, s.dbs = some n ∧ 4 ≤ slot ∧ slot < 4 + n.toNat) := by
    rw [committed_iff]
    cases hp : s.pos with
    | awaitBody =>
      obtain ⟨n, hn⟩ := hsize hp
      simp [hn]
    | _ => simp
  have hdbs : ∀ n, s.pos = .awaitBody → s.dbs = some n → readSize s = .ok n := fun n hp hn => by
    rw [readSize_ok hp, declaredSize_some hn]
  refine ⟨readSize_fault, hdbs, fun b hb => ⟨fun h => ?_, fun h => ?_⟩, fun hnone => ?_⟩
  · exact readSlot_ok (hcommitted.mpr h) hb
  · obtain ⟨hc, -⟩ | ⟨-, e⟩ := readSlot_cases bodyIn slot s
    · exact absurd (hcommitted.mp hc) h
    · exact e
  · obtain ⟨-, b, hb, -⟩ | ⟨-, e⟩ := readSlot_cases bodyIn slot s
    · exact nomatch hb.symm.trans hnone
    · exact e

end Sys2Proof.Machine
end

section
/-! Fetch and execute (40_framer.md R66): the instruction in flight, and a whole instruction from AwaitStart. -/

namespace Sys2Proof.Machine

open Sys2Proof

/-! ### The instruction in flight -/

/-- Settles O29: the decoding ends at the present position, so the micro-step runs it. -/
theorem stepRunsDecodedInstruction : Obligations.StepRunsDecodedInstruction := by
  intro s i rest hs hflight hpos
  rw [step_block hs, microStep_of_inFlight hflight, endsAt, if_pos hpos]
  rfl

/-- A decoding that answers an instruction completing past AwaitStart has read the marker. -/
theorem decode_passes_marker {c : Config} {bs rest : List Byte} {i : Instr} (h : decode c bs = .ok (i, rest))
    (hi : completesAt i ≠ .awaitStart) : ∃ tl, bs = startMarker :: tl ∧ decodeAddress c tl = .ok (i, rest) := by
  cases bs with
  | nil => exact nomatch h
  | cons x tl =>
    rw [decode] at h
    split at h
    · next hx => exact ⟨tl, by rw [eq_of_beq hx], h⟩
    · cases h; exact absurd rfl hi

theorem decodeAddress_passes_address {c : Config} {bs rest : List Byte} {i : Instr}
    (h : decodeAddress c bs = .ok (i, rest)) (hi : completesAt i ≠ .awaitAddress) :
    ∃ a tl, bs = a :: tl ∧ decodeSubAddress c a tl = .ok (i, rest) := by
  cases bs with
  | nil => exact nomatch h
  | cons x tl =>
    rw [decodeAddress] at h
    split at h
    · exact ⟨x, tl, rfl, h⟩
    · cases h; exact absurd rfl hi

theorem decodeSubAddress_passes_subAddress {c : Config} {a : Byte} {bs rest : List Byte} {i : Instr}
    (h : decodeSubAddress c a bs = .ok (i, rest)) (hi : completesAt i ≠ .awaitSubAddress) :
    ∃ b tl, bs = b :: tl ∧ decodeSize c a b tl = .ok (i, rest) := by
  cases bs with
  | nil => exact nomatch h
  | cons x tl =>
    rw [decodeSubAddress] at h
    split at h
    · exact ⟨x, tl, rfl, h⟩
    · cases h; exact absurd rfl hi

theorem decodeSize_passes_size {c : Config} {a b : Byte} {bs rest : List Byte} {i : Instr}
    (h : decodeSize c a b bs = .ok (i, rest)) : ∃ n tl, bs = n :: tl ∧ decodeBody c a b n tl = .ok (i, rest) := by
  cases bs with
  | nil => exact nomatch h
  | cons n tl => exact ⟨n, tl, rfl, h⟩

/-! What the fetch reads, position by position (log 16). -/

theorem inFlight_awaitStart {s : State} (hp : s.pos = .awaitStart) : inFlight s = .ok (decode s.cfg s.rxq) := by
  simp only [inFlight, hp]

theorem inFlight_awaitAddress {s : State} (hp : s.pos = .awaitAddress) :
    inFlight s = .ok (decodeAddress s.cfg s.rxq) := by
  simp only [inFlight, hp]

theorem inFlight_awaitSubAddress {s : State} {a : Byte} (hp : s.pos = .awaitSubAddress) (ha : s.sb.slot 1 = some a) :
    inFlight s = .ok (decodeSubAddress s.cfg a s.rxq) := by
  have haddr : readSlot false addressSlot s = .ok a :=
    readSlot_ok ((committed_iff ..).mpr (by simp [hp, addressSlot])) ha
  simp only [inFlight, hp, haddr]

theorem inFlight_awaitSize {s : State} {a b : Byte} (hp : s.pos = .awaitSize) (ha : s.sb.slot 1 = some a)
    (hb : s.sb.slot 2 = some b) : inFlight s = .ok (decodeSize s.cfg a b s.rxq) := by
  have haddr : readSlot false addressSlot s = .ok a :=
    readSlot_ok ((committed_iff ..).mpr (by simp [hp, addressSlot])) ha
  have hsub : readSlot false subAddressSlot s = .ok b :=
    readSlot_ok ((committed_iff ..).mpr (by simp [hp, subAddressSlot])) hb
  simp only [inFlight, hp, haddr, hsub]

/-- A fetch past AwaitAddress that does not fault has found the stored address. -/
theorem inFlight_finds_address {s : State} {r : Except DecodeError (Instr × List Byte)} (h : inFlight s = .ok r)
    (hp : s.pos = .awaitSubAddress ∨ s.pos = .awaitSize ∨ s.pos = .awaitBody) : ∃ a, s.sb.slot 1 = some a := by
  cases ha : s.sb.slot 1 with
  | some a => exact ⟨a, rfl⟩
  | none =>
    obtain hp | hp | hp := hp <;> simp [inFlight, hp, readSlot, addressSlot, ha] at h

/-- A fetch past AwaitSubAddress that does not fault has found the stored sub-address. -/
theorem inFlight_finds_subAddress {s : State} {r : Except DecodeError (Instr × List Byte)} (h : inFlight s = .ok r)
    (hp : s.pos = .awaitSize ∨ s.pos = .awaitBody) : ∃ b, s.sb.slot 2 = some b := by
  obtain ⟨a, ha⟩ := inFlight_finds_address h (.inr hp)
  have hc : committed false s 1 = true := (committed_iff ..).mpr (by obtain hp | hp := hp <;> simp [hp])
  cases hb : s.sb.slot 2 with
  | some b => exact ⟨b, rfl⟩
  | none =>
    obtain hp | hp := hp <;> simp [inFlight, hp, readSlot, addressSlot, subAddressSlot, hc, ha, hb] at h

/-- Where the instruction in flight completes further on, accepting the next byte leaves it in flight. -/
theorem inFlight_acceptField {s : State} {i : Instr} {rest : List Byte} (h : inFlight s = .ok (.ok (i, rest)))
    (hi : completesAt i ≠ s.pos) (script : List Bool) :
    ∃ b tl, s.rxq = b :: tl ∧
      inFlight (acceptField b { s with readScript := script, rxq := tl }) = .ok (.ok (i, rest)) ∧
      (acceptField b { s with readScript := script, rxq := tl }).pos ≠ s.pos := by
  cases hp : s.pos with
  | awaitStart =>
    rw [inFlight_awaitStart hp, Except.ok.injEq] at h
    obtain ⟨tl, hq, hnext⟩ := decode_passes_marker h (hp ▸ hi)
    refine ⟨startMarker, tl, hq, ?_⟩
    simp only [acceptField_awaitStart]
    exact ⟨(inFlight_awaitAddress rfl).trans (congrArg _ hnext), nofun⟩
  | awaitAddress =>
    rw [inFlight_awaitAddress hp, Except.ok.injEq] at h
    obtain ⟨a, tl, hq, hnext⟩ := decodeAddress_passes_address h (hp ▸ hi)
    refine ⟨a, tl, hq, ?_⟩
    simp only [acceptField_awaitAddress]
    exact ⟨(inFlight_awaitSubAddress rfl (Memory.slot_put_same ..)).trans (congrArg _ hnext), nofun⟩
  | awaitSubAddress =>
    obtain ⟨a, ha⟩ := inFlight_finds_address h (.inl hp)
    rw [inFlight_awaitSubAddress hp ha, Except.ok.injEq] at h
    obtain ⟨b, tl, hq, hnext⟩ := decodeSubAddress_passes_subAddress h (hp ▸ hi)
    have haddr : (s.sb.put 2 b).slot 1 = some a := by rw [Memory.slot_put_other _ _ (by decide), ha]
    refine ⟨b, tl, hq, ?_⟩
    simp only [acceptField_awaitSubAddress]
    exact ⟨(inFlight_awaitSize rfl haddr (Memory.slot_put_same ..)).trans (congrArg _ hnext), nofun⟩
  | awaitSize =>
    obtain ⟨a, ha⟩ := inFlight_finds_address h (.inr (.inl hp))
    obtain ⟨b, hb⟩ := inFlight_finds_subAddress h (.inl hp)
    rw [inFlight_awaitSize hp ha hb, Except.ok.injEq] at h
    obtain ⟨n, tl, hq, hnext⟩ := decodeSize_passes_size h
    refine ⟨n, tl, hq, ?_⟩
    simp only [acceptField_awaitSize]
    exact ⟨(inFlight_awaitBody (s := { s with readScript := script, rxq := tl, dbs := some n, pos := .awaitBody })
      rfl ha hb rfl).trans (congrArg _ hnext), nofun⟩
  | awaitBody =>
    obtain ⟨a, ha⟩ := inFlight_finds_address h (.inr (.inr hp))
    obtain ⟨b, hb⟩ := inFlight_finds_subAddress h (.inr hp)
    rw [inFlight_awaitBody hp ha hb rfl, Except.ok.injEq] at h
    have hends := endsAt_decodeBody s.cfg a b (declaredSize s) s.rxq
    rw [h] at hends
    exact absurd (hends.trans hp.symm) hi

/-- Settles O30: the step accepts the next byte, which keeps the instruction in flight (`inFlight_acceptField`). -/
theorem headerStepKeepsInstruction : Obligations.HeaderStepKeepsInstruction := by
  intro s i rest hs hr hflight hi
  obtain ⟨b, tl, hq, hkept, hpos⟩ := inFlight_acceptField hflight hi s.readScript.tail
  have hstep : step s = .next (acceptField b { s with readScript := s.readScript.tail, rxq := tl }) := by
    rw [step_block hs, microStep_of_inFlight hflight, endsAt, if_neg hi, takeHeader_eq (accept := fun _ => true) hq rfl,
      fieldStep_accepts hq hr rfl]
  obtain ⟨hcfg, hrxq, htxq, hevt, hdraining, -, hturns⟩ :=
    acceptField_fields b { s with readScript := s.readScript.tail, rxq := tl }
  exact ⟨_, hstep, hkept, by rw [hrxq, hq]; rfl, hpos, hevt, htxq, hcfg, hdraining.trans hs.running,
    hturns.trans hs.turn⟩

/-! ### A whole instruction from AwaitStart -/

/-- What running the instruction `i` from `s` leaves: its bytes gone, its outputs made, the parser at AwaitStart. -/
structure RanWhole (i : Instr) (rest : List Byte) (s t : State) : Prop where
  bytes : t.rxq = rest
  position : t.pos = .awaitStart
  events : t.evt = s.evt ++ outputs s.cfg i
  sink : t.txq = s.txq ++ (outputs s.cfg i).flatMap Event.sinkBytes
  running : t.draining = true
  config : t.cfg = s.cfg

/-- A rejected input leaves the source short of its bytes, and no more. -/
theorem RanWhole.of_silent {i : Instr} {s : State} {rest : List Byte} {sb : Memory} {dbs : Option Byte}
    (hs : BlockMoves s) (hi : outputs s.cfg i = []) :
    RanWhole i rest s { s with pos := .awaitStart, rxq := rest, sb := sb, dbs := dbs } :=
  ⟨rfl, rfl, by simp [hi], by simp [hi], hs.running, rfl⟩

/-- A byte that fails the test of its position is taken and rejected, where no read fails. -/
theorem step_rejects {accept : Byte → Bool} {s : State} {b : Byte} {rest : List Byte} (hs : BlockMoves s)
    (hr : s.readScript = []) (hm : microStep s = fieldStep accept s) (hq : s.rxq = b :: rest) (hb : accept b = false) :
    step s = .next { s with rxq := rest, pos := .awaitStart } := by
  have hread : ReadSucceeds s := by simp [ReadSucceeds, hr]
  rw [step_block hs, hm, fieldStep_rejects hq hread hb, hr, List.tail_nil, ← hr]
  rfl

theorem runs_frame {s : State} {addr sub : Byte} {body rest : List Byte} (hs : BlockMoves s)
    (hr : s.readScript = []) (hp : s.pos = .awaitStart) (haddr : acceptsAddress s.cfg addr = true)
    (hsub : validSub s.cfg sub = true) (hfits : body.length ≤ bodyCap s.cfg)
    (hq : s.rxq = frame addr sub body ++ rest) :
    ∃ t, core.run 5 s = .next t ∧ RanWhole (classify s.cfg addr sub body) rest s t := by
  refine ⟨_, run_frame hs hr hp haddr hsub hfits hq, ?_⟩
  obtain ⟨es, hshape, hes⟩ := dispatchOf_shape s.cfg (classify s.cfg addr sub body)
    (bodyTaken body rest (headerTaken addr sub (BitVec.ofNat 8 body.length) (body ++ rest) s))
  rw [hshape, hes (received_classify ..)]
  exact ⟨rfl, rfl, rfl, rfl, hs.running, rfl⟩

theorem runs_rejNoise {s : State} {x : Byte} {rest : List Byte} (hs : BlockMoves s) (hr : s.readScript = [])
    (hp : s.pos = .awaitStart) (hx : x ≠ startMarker) (hq : s.rxq = x :: rest) :
    ∃ t, core.run 1 s = .next t ∧ RanWhole (.rejNoise x) rest s t := by
  have hstep := step_rejects hs hr (microStep_awaitStart hp) hq (beq_eq_false_iff_ne.mpr hx)
  exact ⟨_, run_succ hstep, .of_silent hs rfl⟩

theorem runs_rejAddr {s : State} {x : Byte} {rest : List Byte} (hs : BlockMoves s) (hr : s.readScript = [])
    (hp : s.pos = .awaitStart) (hx : acceptsAddress s.cfg x = false) (hq : s.rxq = startMarker :: x :: rest) :
    ∃ t, core.run 2 s = .next t ∧ RanWhole (.rejAddr x) rest s t := by
  have hmarker := step_takes_marker hs hr hp hq
  have hreject := step_rejects (s := { s with rxq := x :: rest, pos := .awaitAddress })
    ⟨hs.legal, hs.running, hs.turn⟩ hr (microStep_awaitAddress rfl) rfl hx
  exact ⟨_, (run_succ hmarker).trans (run_succ hreject), .of_silent hs rfl⟩

theorem runs_rejSub {s : State} {addr x : Byte} {rest : List Byte} (hs : BlockMoves s) (hr : s.readScript = [])
    (hp : s.pos = .awaitStart) (haddr : acceptsAddress s.cfg addr = true) (hx : validSub s.cfg x = false)
    (hq : s.rxq = startMarker :: addr :: x :: rest) :
    ∃ t, core.run 3 s = .next t ∧ RanWhole (.rejSub addr x) rest s t := by
  have hmarker := step_takes_marker hs hr hp hq
  have haddress := step_takes_address (s := { s with rxq := addr :: x :: rest, pos := .awaitAddress })
    ⟨hs.legal, hs.running, hs.turn⟩ hr rfl rfl haddr
  have hreject := step_rejects
    (s := { s with rxq := x :: rest, sb := s.sb.put 1 addr, pos := .awaitSubAddress })
    ⟨hs.legal, hs.running, hs.turn⟩ hr (microStep_awaitSubAddress rfl (Memory.slot_put_same ..)) rfl hx
  exact ⟨_, (run_succ hmarker).trans ((run_succ haddress).trans (run_succ hreject)), .of_silent hs rfl⟩

theorem runs_rejSize {s : State} {addr sub n : Byte} {rest : List Byte} (hs : BlockMoves s) (hr : s.readScript = [])
    (hp : s.pos = .awaitStart) (haddr : acceptsAddress s.cfg addr = true) (hsub : validSub s.cfg sub = true)
    (hn : oversize s.cfg n = true) (hq : s.rxq = startMarker :: addr :: sub :: n :: rest) :
    ∃ t, core.run 5 s = .next t ∧ RanWhole (.rejSize addr sub n) rest s t := by
  have hguard : step (headerTaken addr sub n rest s) = .next (reject (headerTaken addr sub n rest s)) := by
    obtain ⟨-, e⟩ | ⟨h, -⟩ | ⟨h, -⟩ | ⟨h, -⟩ := step_awaitBody (s := headerTaken addr sub n rest s)
      ⟨hs.legal, hs.running, hs.turn⟩ rfl (headerTaken_slot_address ..) (headerTaken_slot_subAddress ..) rfl
    · exact e
    all_goals exact absurd ((oversize_iff ..).mp hn) (Nat.not_lt.mpr h)
  have hheader := run_add (k := 1) (run_header hs hr hp haddr hsub hq)
  exact ⟨_, hheader.trans (run_succ hguard), .of_silent hs rfl⟩

theorem headerSteps_of_awaitBody {i : Instr} (h : completesAt i = .awaitBody) : headerSteps i = 4 := by
  cases i with
  | rejNoise | rejAddr | rejSub => exact nomatch h
  | _ => rfl

/-- A well-formed received instruction at the head of the source runs in its header steps and one more. -/
theorem runs_whole {s : State} {i : Instr} {rest : List Byte} (hs : BlockMoves s) (hr : s.readScript = [])
    (hp : s.pos = .awaitStart) (hwf : i.wf s.cfg = true) (hi : i.received = true) (hq : s.rxq = encode i ++ rest) :
    ∃ t, core.run (headerSteps i + 1) s = .next t ∧ RanWhole i rest s t := by
  cases admitted_of_wf hwf hi with
  | frame haddr hsub hfits =>
    rw [encode_classify] at hq
    rw [headerSteps_of_awaitBody (completesAt_classify ..)]
    exact runs_frame hs hr hp haddr hsub hfits hq
  | noise hx => exact runs_rejNoise hs hr hp hx hq
  | address hx => exact runs_rejAddr hs hr hp hx hq
  | subAddress haddr hx => exact runs_rejSub hs hr hp haddr hx hq
  | size haddr hsub hn => exact runs_rejSize hs hr hp haddr hsub hn hq

/-- Settles O31: what the decoder answers is well formed and encoded by the bytes at the head (O2), and runs whole. -/
theorem wholeInstructionRuns : Obligations.WholeInstructionRuns := by
  intro s i rest hs hr hp hdecode
  obtain ⟨hwf, hi, hq⟩ := decodedInstructionIsWellFormed s.cfg s.rxq i rest hdecode
  obtain ⟨t, hrun, hbytes, hpos, hevt, htxq, hrunning, hcfg⟩ := runs_whole hs hr hp hwf hi hq
  exact ⟨t, hrun, hbytes, hpos, hevt, htxq, hrunning, hcfg⟩

/-- Settles O33: an empty frame runs in five steps, and its dispatch does nothing. -/
theorem zeroLengthLaw : Obligations.ZeroLengthLaw := by
  intro s addr sub rest hs hr hp haddr hsub hq
  have hrun := run_frame (body := []) hs hr hp haddr hsub (Nat.zero_le _) hq
  rw [dispatchOf_classify_nil] at hrun
  exact ⟨_, hrun, rfl, rfl, rfl, rfl⟩

end Sys2Proof.Machine
end

section
/-! What a step cannot depend on: stale slots and the sub-address of a broadcast frame (41_dispatch.md R95, R96). -/

namespace Sys2Proof.Machine

open Sys2Proof

/-- Where `r` answers a next state, `r'` answers the same up to the buffer. -/
def AgreeButBuffer (r r' : Result) : Prop := ∀ t, r = .next t → ∃ m, r' = .next { t with sb := m }

theorem AgreeButBuffer.next (s : State) (m : Memory) : AgreeButBuffer (.next s) (.next { s with sb := m }) := by
  rintro t ⟨⟩
  exact ⟨m, rfl⟩

/-- The availability test and the read do not look at the buffer. -/
theorem AgreeButBuffer.readThen {n : Nat} {s : State} {m : Memory} {k k' : List Byte → State → Result}
    (hk : ∀ bs u, AgreeButBuffer (k bs u) (k' bs { u with sb := m })) :
    AgreeButBuffer (readThen n s k) (readThen n { s with sb := m } k') := by
  obtain ⟨hn, e⟩ | ⟨hn, hr, e⟩ | ⟨hn, hr, e⟩ := readThen_cases n s k <;> rw [e]
  · rw [readThen_short (s := { s with sb := m }) hn]
    exact .next (noProgress s) m
  · rw [readThen_fails (s := { s with sb := m }) hn hr]
    exact .next (noProgress { s with readScript := s.readScript.tail }) m
  · rw [readThen_ok (s := { s with sb := m }) hn hr]
    exact hk _ _

/-- A completed frame does not look at the buffer, its dispatch working on any buffer alike. -/
theorem AgreeButBuffer.completeFrame {body : List Byte} {d : State → State} (s : State) (m : Memory)
    (hd : ∀ u m, d { u with sb := m } = { d u with sb := m }) :
    AgreeButBuffer (completeFrame body d s) (completeFrame body d { s with sb := m }) := by
  refine .readThen fun bs u => ?_
  by_cases hfits : bs.length ≤ bodyCap u.cfg
  · rw [finishFrame_ok hfits, finishFrame_ok (s := { u with sb := m }) hfits]
    rw [hd u (u.sb.putAll 4 bs), hd u (m.putAll 4 bs)]
    exact .next { frameDone (d u) with sb := u.sb.putAll 4 bs } (m.putAll 4 bs)
  · rw [finishFrame_overflow (Nat.lt_of_not_le hfits)]
    exact nofun

theorem AgreeButBuffer.exec (i : Instr) (s : State) (m : Memory) :
    AgreeButBuffer (exec i s) (exec i { s with sb := m }) := by
  cases i with
  | rejNoise | rejAddr | rejSub => exact .readThen fun _ u => .next (reject u) m
  | rejSize => exact .next (reject s) m
  | pong opcode addr lo hi => exact .next (txWrite (pongBytes opcode addr lo hi) s) m
  | sysPing sub cmd payload => exact .completeFrame (d := txWrite (pongFrame s.cfg)) s m fun _ _ => rfl
  | sysMsg sub cmd payload => exact .completeFrame (d := sysMessage cmd payload) s m fun _ _ => rfl
  | devMsg addr sub cmd payload => exact .completeFrame (d := devMessage sub cmd payload) s m fun _ _ => rfl
  | sysEmpty | devEmpty => exact .completeFrame (body := []) (d := id) s m fun _ _ => rfl

/-- Accepting a header byte touches the buffer at one slot, and the rest of the state alike on any buffer. -/
theorem acceptField_buffer (b : Byte) (s : State) (m : Memory) :
    ∃ m', acceptField b { s with sb := m } = { acceptField b s with sb := m' } := by
  cases hp : s.pos with
  | awaitStart => exact ⟨m, by simp only [acceptField, hp]⟩
  | awaitAddress => exact ⟨m.put addressSlot b, by simp only [acceptField, hp]⟩
  | awaitSubAddress => exact ⟨m.put subAddressSlot b, by simp only [acceptField, hp]⟩
  | awaitSize => exact ⟨m, by simp only [acceptField, hp]⟩
  | awaitBody => exact ⟨m, by simp only [acceptField, hp]⟩

theorem foldl_acceptField_buffer (bs : List Byte) (s : State) (m : Memory) :
    ∃ m', bs.foldl (fun u b => acceptField b u) { s with sb := m } =
      { bs.foldl (fun u b => acceptField b u) s with sb := m' } := by
  induction bs generalizing s m with
  | nil => exact ⟨m, rfl⟩
  | cons b bs ih =>
    obtain ⟨m', hm'⟩ := acceptField_buffer b s m
    simp only [List.foldl_cons, hm']
    exact ih (acceptField b s) m'

theorem AgreeButBuffer.takeHeader (s : State) (m : Memory) :
    AgreeButBuffer (takeHeader s) (takeHeader { s with sb := m }) := by
  refine .readThen fun bs u => ?_
  obtain ⟨m', hm'⟩ := foldl_acceptField_buffer bs u m
  rw [hm']
  exact .next _ m'

theorem AgreeButBuffer.runHere (r : Except DecodeError (Instr × List Byte)) (s : State) (m : Memory) :
    AgreeButBuffer (runHere r s) (runHere r { s with sb := m }) := by
  match r with
  | .ok (i, _) => exact .exec i s m
  | .error _ => exact .next (noProgress s) m

/-- Of the buffer, the read of a slot looks at that slot. -/
theorem readSlot_buffer {bodyIn : Bool} {slot : Nat} {s : State} {m : Memory} (h : m.slot slot = s.sb.slot slot) :
    readSlot bodyIn slot { s with sb := m } = readSlot bodyIn slot s := by
  have hc : committed bodyIn { s with sb := m } slot = committed bodyIn s slot := rfl
  simp only [readSlot, hc, h]

/-- Two buffers with the same header slots have the same instruction in flight. -/
theorem inFlight_buffer {s : State} {m : Memory} (h1 : m.slot 1 = s.sb.slot 1) (h2 : m.slot 2 = s.sb.slot 2) :
    inFlight { s with sb := m } = inFlight s := by
  have haddr := readSlot_buffer (bodyIn := false) (slot := addressSlot) (s := s) h1
  have hsub := readSlot_buffer (bodyIn := false) (slot := subAddressSlot) (s := s) h2
  have hsize : readSize { s with sb := m } = readSize s := rfl
  simp only [inFlight, haddr, hsub, hsize]

/-- Settles O27: the instruction in flight is the same, and neither its execution nor a header byte looks at the
buffer. -/
theorem staleBytesNeverLeak : Obligations.StaleBytesNeverLeak := by
  intro s t other hs h1 h2 hstep
  have hs' : BlockMoves { s with sb := other } := ⟨hs.legal, hs.running, hs.turn⟩
  rw [step_block hs] at hstep
  rw [step_block hs']
  cases hflight : inFlight s with
  | error f =>
    rw [microStep, hflight] at hstep
    exact nomatch hstep
  | ok r =>
    rw [microStep_of_inFlight hflight] at hstep
    rw [microStep_of_inFlight ((inFlight_buffer h1 h2).trans hflight)]
    split at hstep
    · next hends => rw [if_pos hends]; exact AgreeButBuffer.runHere r s other t hstep
    · next hends => rw [if_neg hends]; exact AgreeButBuffer.takeHeader s other t hstep

/-- The dispatch of a broadcast body does not depend on the sub-address. -/
theorem dispatchOf_classify_broadcast (c : Config) (b b' : Byte) (body : List Byte) :
    dispatchOf c (classify c broadcast b body) = dispatchOf c (classify c broadcast b' body) := by
  cases body with
  | nil => rfl
  | cons cmd payload =>
    by_cases hcmd : cmd = c.pingOpcode
    · subst hcmd; rw [classify_broadcast_ping, classify_broadcast_ping]; rfl
    · rw [classify_broadcast_message hcmd, classify_broadcast_message hcmd]; rfl

/-- Running the decoding of a broadcast body does not depend on the sub-address. -/
theorem runHere_decodeBody_broadcast (b b' n : Byte) (bs : List Byte) (s : State) :
    runHere (decodeBody s.cfg broadcast b n bs) s = runHere (decodeBody s.cfg broadcast b' n bs) s := by
  unfold decodeBody
  split
  · rfl
  · split
    · rfl
    · simp only [runHere, exec_classify]
      rw [dispatchOf_classify_broadcast s.cfg b b']

/-- Settles O28: replacing slot 2 changes the sub-address of the body in flight, which nothing it does depends on. -/
theorem systemFrameHidesSubAddress : Obligations.SystemFrameHidesSubAddress := by
  intro s t other hs hp (h1 : s.sb.slot 1 = some broadcast) ⟨b, h2⟩ hstep
  have hs' : BlockMoves { s with sb := s.sb.put 2 other } := ⟨hs.legal, hs.running, hs.turn⟩
  have h1' : (s.sb.put 2 other).slot 1 = some broadcast := by
    rw [Memory.slot_put_other _ _ (by decide), h1]
  have hflight := inFlight_awaitBody (s := { s with sb := s.sb.put 2 other }) hp h1' (Memory.slot_put_same ..) rfl
  rw [step_block hs, microStep_of_inFlight (inFlight_awaitBody hp h1 h2 rfl), endsAt_decodeBody, if_pos hp.symm,
    runHere_decodeBody_broadcast b other] at hstep
  rw [step_block hs', microStep_of_inFlight hflight, endsAt_decodeBody, if_pos hp.symm]
  exact AgreeButBuffer.runHere _ s (s.sb.put 2 other) t hstep

end Sys2Proof.Machine
end

section
/-! The ports (70_reset_and_hazards.md R140): the output transactions, and the read port. -/

namespace Sys2Proof.Machine

open Sys2Proof

theorem toNat_append_byte {w : Nat} (x : BitVec w) (b : Byte) : (x ++ b).toNat = x.toNat * 256 + b.toNat := by
  rw [BitVec.toNat_append, ← Nat.shiftLeft_add_eq_or_of_lt b.isLt, Nat.shiftLeft_eq]

/-- A payload whose message fits the buffer has a length that one byte counts, at most 254. -/
theorem payload_length_byte {c : Config} {payload : List Byte} (h : payload.length + 1 ≤ bodyCap c) :
    (BitVec.ofNat 8 payload.length).toNat = payload.length ∧ (BitVec.ofNat 8 payload.length).toNat ≤ 254 := by
  have hcap : bodyCap c ≤ 255 := Nat.min_le_right ..
  rw [BitVec.toNat_ofNat]
  omega

/-- Settles O57: the word is its bytes in base 256, and a sound message counts its payload in one byte. -/
theorem portsCarryTheEvents : Obligations.PortsCarryTheEvents := by
  intro c
  have hword : BitVec.ofNat 64 (numberOfBytes (pongFrame c)) =
      0x4D000004#32 ++ c.pongOpcode ++ c.deviceAddress ++ c.minDrive ++ c.maxDrive := by
    refine BitVec.eq_of_toNat_eq ?_
    simp only [toNat_append_byte, numberOfBytes, pongFrame, pongBytes, startMarker, List.foldl_cons, List.foldl_nil,
      BitVec.toNat_ofNat]
    omega
  exact ⟨congrArg _ hword, fun cmd payload ⟨_, hfits⟩ => ⟨_, rfl, payload_length_byte hfits⟩,
    fun sub cmd payload ⟨_, hfits⟩ => ⟨_, rfl, payload_length_byte hfits⟩⟩

/-! ### The read port -/

theorem rxRequest_of_blockMoves {s : State} (hs : BlockMoves s) :
    rxRequest s = (bytesWanted s).filter fun n => decide (n ≤ rxAvail s) := by
  have hnext : blockIsNext s = true := by simp [blockIsNext, hs.legal, hs.running, hs.turn]
  simp only [rxRequest, hnext, Bool.true_and]

/-- What the ports of a micro-step from `s` to `t` show: no request and no read, or a request and its read. -/
def PortShows (s t : State) : Prop :=
  (rxPop s = none → rxData s = none ∧ rxFail s = false ∧ t.rxq = s.rxq ∧ t.readScript = s.readScript) ∧
  (∀ n : BitVec 9, rxPop s = some n →
    n.toNat ≤ rxAvail s ∧ t.readScript = s.readScript.tail ∧
    (rxFail s = true → rxData s = none ∧ t.rxq = s.rxq) ∧
    (rxFail s = false → rxData s = some (s.rxq.take n.toNat) ∧ t.rxq = s.rxq.drop n.toNat))

theorem PortShows.of_no_request {s t : State} (h : rxRequest s = none) (hrxq : t.rxq = s.rxq)
    (hscript : t.readScript = s.readScript) : PortShows s t := by
  have hpop : rxPop s = none := by simp [rxPop, h]
  refine ⟨fun _ => ⟨by simp [rxData, h], by simp [rxFail, h], hrxq, hscript⟩, fun n hn => ?_⟩
  exact nomatch hpop.symm.trans hn

theorem PortShows.of_request {s t : State} {k : Nat} (h : rxRequest s = some k) (hk : k ≤ 255)
    (havail : k ≤ s.rxq.length) (hscript : t.readScript = s.readScript.tail)
    (hfails : ¬ ReadSucceeds s → t.rxq = s.rxq) (hreads : ReadSucceeds s → t.rxq = s.rxq.drop k) : PortShows s t := by
  have hpop : rxPop s = some (BitVec.ofNat 9 k) := by simp [rxPop, h]
  refine ⟨fun hnone => absurd (hnone.symm.trans hpop) nofun, fun n hn => ?_⟩
  obtain rfl : n = BitVec.ofNat 9 k := Option.some.inj (hn.symm.trans hpop)
  have hcount : (BitVec.ofNat 9 k).toNat = k := by rw [BitVec.toNat_ofNat]; omega
  have hfail : rxFail s = s.readScript.headD false := by simp [rxFail, h]
  have hdata : rxData s = (rxRead k s).1 := by simp [rxData, h]
  rw [hcount, hfail, hdata]
  refine ⟨havail, hscript, fun hf => ?_, fun hr => ?_⟩
  · have hr : ¬ ReadSucceeds s := fun hr => nomatch hf.symm.trans hr
    exact ⟨by rw [rxRead_fails hr], hfails hr⟩
  · exact ⟨by rw [rxRead_ok hr], hreads hr⟩

theorem bytesWanted_header {s : State} (hp : s.pos ≠ .awaitBody) : bytesWanted s = some 1 := by
  unfold bytesWanted
  split
  · next h => exact absurd h hp
  all_goals rfl

theorem bytesWanted_awaitBody {s : State} {n : Byte} (hp : s.pos = .awaitBody) (hn : s.dbs = some n) :
    bytesWanted s = if oversize s.cfg n then none else some n.toNat := by
  simp only [bytesWanted, hp, declaredSize_some hn]

/-- At a header position the port asks for one byte, where there is one. -/
theorem portShows_header {s t : State} (hs : BlockMoves s) (hv : ValidatedPrefix s) (hp : s.pos ≠ .awaitBody)
    (hstep : step s = .next t) : PortShows s t := by
  have hrequest : rxRequest s = (some 1).filter fun n => decide (n ≤ rxAvail s) := by
    rw [rxRequest_of_blockMoves hs, bytesWanted_header hp]
  obtain ⟨hnil, hcons⟩ := step_header hs (microStep_field hv hp)
  cases hq : s.rxq with
  | nil =>
    cases (hnil hq).symm.trans hstep
    exact .of_no_request (by simp [hrequest, rxAvail, hq]) rfl rfl
  | cons b rest =>
    obtain ⟨hfails, haccepts, hrejects⟩ := hcons b rest hq
    have hasked : rxRequest s = some 1 := by simp [hrequest, rxAvail, hq]
    have hlen : 1 ≤ s.rxq.length := by simp [hq]
    by_cases hr : ReadSucceeds s
    · have htaken : t.rxq = rest ∧ t.readScript = s.readScript.tail := by
        cases hb : fieldTest s b with
        | true =>
          cases (haccepts hr hb).symm.trans hstep
          obtain ⟨-, hrxq, -, -, -, hscript, -⟩ :=
            acceptField_fields b { s with readScript := s.readScript.tail, rxq := rest }
          exact ⟨hrxq, hscript⟩
        | false =>
          cases (hrejects hr hb).symm.trans hstep
          exact ⟨rfl, rfl⟩
      exact .of_request hasked (by decide) hlen htaken.2 (absurd hr) fun _ => by rw [htaken.1, hq]; rfl
    · cases (hfails hr).symm.trans hstep
      exact .of_request hasked (by decide) hlen rfl (fun _ => rfl) fun h => absurd h hr

/-- At AwaitBody the port asks for the whole body, where it is there and fits. -/
theorem portShows_body {s t : State} (hs : BlockMoves s) (hv : ValidatedPrefix s) (hp : s.pos = .awaitBody)
    (hstep : step s = .next t) : PortShows s t := by
  obtain ⟨a, ha, -⟩ := hv.address (.inr (.inr hp))
  obtain ⟨b, hb, -⟩ := hv.subAddress (.inr hp)
  obtain ⟨n, hn⟩ := hv.size hp
  have hrequest := rxRequest_of_blockMoves hs
  rw [bytesWanted_awaitBody hp hn] at hrequest
  have hcount : n.toNat ≤ 255 := Nat.le_of_lt_succ n.isLt
  have hguard : n.toNat ≤ s.cfg.maxBody → oversize s.cfg n = false := fun h =>
    Bool.eq_false_iff.mpr fun hbig => absurd ((oversize_iff ..).mp hbig) (Nat.not_lt.mpr h)
  obtain ⟨hbig, e⟩ | ⟨hfits, hshort, e⟩ | ⟨hfits, hlen, hr, e⟩ | ⟨hfits, hlen, hr, e⟩ :=
    step_awaitBody hs hp ha hb hn <;> cases e.symm.trans hstep
  · have hover : oversize s.cfg n = true := (oversize_iff ..).mpr hbig
    exact .of_no_request (by simp [hrequest, hover]) rfl rfl
  · exact .of_no_request (by simp [hrequest, hguard hfits, rxAvail, Nat.not_le.mpr hshort]) rfl rfl
  · have hasked : rxRequest s = some n.toNat := by simp [hrequest, hguard hfits, rxAvail, hlen]
    exact .of_request hasked hcount hlen rfl (fun _ => rfl) fun h => absurd h hr
  · have hasked : rxRequest s = some n.toNat := by simp [hrequest, hguard hfits, rxAvail, hlen]
    rw [frameDone_dispatch_classify]
    exact .of_request hasked hcount hlen rfl (absurd hr) fun _ => rfl

/-- Settles O60, at the header positions and at AwaitBody. -/
theorem readPortShowsTheRead : Obligations.ReadPortShowsTheRead := by
  intro s t hs hv hstep
  by_cases hp : s.pos = .awaitBody
  · exact portShows_body hs hv hp hstep
  · exact portShows_header hs hv hp hstep

end Sys2Proof.Machine
end

section
/-! The `drain` call (40_framer.md R65, R75 to R79; 70_reset_and_hazards.md R129, R133). -/

namespace Sys2Proof.Machine

open Sys2Proof

/-! ### A call returns (R75) -/

/-- What every micro-step inside a call makes smaller: two for each byte of the source, one for AwaitBody. -/
def drainMeasure (s : State) : Nat := 2 * s.rxq.length + if s.pos = .awaitBody then 1 else 0

theorem drainMeasure_lt_bound (s : State) : drainMeasure s < drainBound s := by
  unfold drainMeasure drainBound
  split <;> omega

theorem MicroMove.drainMeasure_lt {s t : State} (h : MicroMove s t) (hrun : t.draining = true) :
    drainMeasure t < drainMeasure s := by
  obtain ⟨⟨_, rfl⟩, -⟩ | ⟨-, ⟨n, hn, hlen, hdrop⟩ | ⟨hsame, hbody, hstart⟩⟩ := h.progress
  · exact nomatch hrun
  · have hshort : t.rxq.length + 1 ≤ s.rxq.length := by rw [hdrop, List.length_drop]; omega
    unfold drainMeasure
    split <;> split <;> omega
  · simp [drainMeasure, hsame, hbody, hstart]

theorem step_moves {s : State} (hs : BlockMoves s) (hv : ValidatedPrefix s) :
    ∃ t, step s = .next t ∧ MicroMove s t := by
  rw [step_block hs]
  exact microStep_moves hv

/-- After a micro-step that has not ended the call, it is the block's turn again. -/
theorem BlockMoves.microMove {s t : State} (hs : BlockMoves s) (hm : MicroMove s t) (hrun : t.draining = true) :
    BlockMoves t :=
  ⟨by rw [hm.cfg_eq]; exact hs.legal, hrun, hm.turns_eq.trans hs.turn⟩

theorem MicroMove.readScript_nil {s t : State} (h : MicroMove s t) (hr : s.readScript = []) : t.readScript = [] := by
  obtain ⟨-, -, hsame | htail⟩ := h.leaves
  · rw [hsame, hr]
  · rw [htail, hr]; rfl

/-- The state in which a micro-step has ended the call, where no read fails, needs more bytes. -/
theorem MicroMove.quiescent {s t : State} (hm : MicroMove s t) (hs : BlockMoves s) (hv : ValidatedPrefix s)
    (hr : s.readScript = []) (hstop : t.draining = false) : Quiescent t := by
  obtain ⟨⟨_, rfl⟩, hquiet⟩ | ⟨hsame, -⟩ := hm.progress
  · exact hquiet (by simp [ReadSucceeds, hr]) hv
  · exact absurd (hstop.symm.trans (hsame.trans hs.running)) Bool.false_ne_true

/-- With as many micro-steps as the measure says and one more, the loop returns. -/
theorem drainLoop_returns {s : State} {k : Nat} (hs : BlockMoves s) (hv : ValidatedPrefix s) (hk : drainMeasure s < k) :
    ∃ t, drainLoop k s = .next t ∧ t.draining = false ∧ (s.readScript = [] → Quiescent t) := by
  induction k generalizing s with
  | zero => exact absurd hk (Nat.not_lt_zero _)
  | succ k ih =>
    obtain ⟨u, hstep, hm⟩ := step_moves hs hv
    cases hrun : u.draining with
    | false => exact ⟨u, drainLoop_of_stopped hstep hrun, hrun, fun hr => hm.quiescent hs hv hr hrun⟩
    | true =>
      have hlt := hm.drainMeasure_lt hrun
      obtain ⟨t, hloop, hstop, hquiet⟩ := ih (hs.microMove hm hrun) (hm.keeps_prefix hv) (by omega)
      exact ⟨t, (drainLoop_of_running hstep hrun).trans hloop, hstop, fun hr => hquiet (hm.readScript_nil hr)⟩

theorem drain_returns {s : State} (hlegal : s.cfg.wf = true) (hv : ValidatedPrefix s) :
    ∃ t, drain s = .next t ∧ t.draining = false ∧ (s.readScript = [] → Quiescent t) :=
  drainLoop_returns (s := { s with draining := true, turns := [] }) ⟨hlegal, rfl, rfl⟩ (hv.of_eq rfl rfl rfl rfl)
    (drainMeasure_lt_bound s)

/-- Settles O48: the bound of a call exceeds its measure. -/
theorem drainReturnsWithinBound : Obligations.DrainReturnsWithinBound :=
  fun _ h => drain_returns h.legal h.validated

/-! ### Calls that do nothing, or only scan -/

/-- A call of a block that needs more bytes ends at its first micro-step. -/
theorem drain_of_quiescent {s : State} (hlegal : s.cfg.wf = true) (hv : ValidatedPrefix s) (hquiet : Quiescent s) :
    drain s = .next { s with draining := false, turns := [] } :=
  drainLoop_of_stopped (waitingBlockStaysWaiting { s with draining := true, turns := [] } ⟨hlegal, rfl, rfl⟩
    (hv.of_eq rfl rfl rfl rfl) hquiet) rfl

/-- Settles O49: with an empty source, outside the byte-less states, the block needs more bytes. -/
theorem idleDrainChangesNothing : Obligations.IdleDrainChangesNothing := by
  intro s h hq hturns hstopped hbody
  have hquiet : Quiescent s := by
    by_cases hp : s.pos = .awaitBody
    · obtain ⟨n, hn⟩ := h.validated.size hp
      obtain ⟨hne, hmax⟩ := hbody n hp hn
      have hpos : n.toNat ≠ 0 := fun h0 => hne (BitVec.eq_of_toNat_eq h0)
      have hcap : n.toNat ≤ bodyCap s.cfg := le_min hmax (Nat.le_of_lt_succ n.isLt)
      exact .inr ⟨hp, n, hn, hcap, Nat.pos_of_ne_zero hpos, by rw [hq]; exact Nat.pos_of_ne_zero hpos⟩
    · exact .inl ⟨hq, hp⟩
  rw [drain_of_quiescent h.legal h.validated hquiet, ← hturns, ← hstopped]

/-- Settles O51: the marker is taken, the foreign address rejected, and the rest is scanned (`drainLoop_noise`). -/
theorem foreignFrameIsFiltered : Obligations.ForeignFrameIsFiltered := by
  intro s addr rest hlegal hp hr hq hbroadcast hdevice hnoise
  have hforeign : acceptsAddress s.cfg addr = false := by
    refine Bool.eq_false_iff.mpr fun h => ?_
    exact ((acceptsAddress_iff ..).mp h).elim hbroadcast hdevice
  have hmarker : step { s with draining := true, turns := [] } =
      .next { s with draining := true, turns := [], rxq := addr :: rest, pos := .awaitAddress } :=
    step_takes_marker (s := { s with draining := true, turns := [] }) ⟨hlegal, rfl, rfl⟩ hr hp hq
  have hreject : step { s with draining := true, turns := [], rxq := addr :: rest, pos := .awaitAddress } =
      .next { s with draining := true, turns := [], rxq := rest, pos := .awaitStart } :=
    step_rejects (s := { s with draining := true, turns := [], rxq := addr :: rest, pos := .awaitAddress })
      ⟨hlegal, rfl, rfl⟩ hr (microStep_awaitAddress rfl) rfl hforeign
  have hbound : drainBound s = (2 * rest.length + 3) + 1 + 1 + 1 := by
    simp only [drainBound, hq, List.length_cons]; omega
  rw [drain, hbound, drainLoop_of_running hmarker rfl, drainLoop_of_running hreject rfl, hp]
  exact drainLoop_noise (q := rest) (k := 2 * rest.length + 3) ⟨hlegal, rfl, rfl⟩ rfl hr rfl hnoise (by omega)

/-! ### Fuel (R75): any number of micro-steps above the measure gives the same call -/

theorem drainLoop_mono {s t : State} {k j : Nat} (hrun : s.draining = true) (h : drainLoop k s = .next t)
    (hstop : t.draining = false) (hj : k ≤ j) : drainLoop j s = .next t := by
  induction k generalizing s j with
  | zero =>
    cases h
    exact absurd (hstop.symm.trans hrun) Bool.false_ne_true
  | succ k ih =>
    obtain ⟨i, rfl⟩ : ∃ i, j = i + 1 := ⟨j - 1, by omega⟩
    unfold drainLoop at h ⊢
    split at h
    · split at h
      · next hgo => rw [if_pos hgo]; exact ih hgo h (by omega)
      · next hend => rw [if_neg hend]; exact h
    · exact nomatch h
    · exact nomatch h

theorem drainLoop_fuel {s : State} {k j : Nat} (hs : BlockMoves s) (hv : ValidatedPrefix s) (hk : drainMeasure s < k)
    (hj : drainMeasure s < j) : drainLoop k s = drainLoop j s := by
  obtain ⟨t, hloop, hstop, -⟩ := drainLoop_returns hs hv (Nat.lt_succ_self (drainMeasure s))
  rw [drainLoop_mono hs.running hloop hstop hk, drainLoop_mono hs.running hloop hstop hj]

/-! ### What a state will have become once its bytes are drained (R76, R78) -/

/-- The state in which the final call of `finish` begins. -/
def atCall (s : State) : State := { s with draining := true, readScript := [], turns := [] }

theorem blockMoves_atCall {s : State} (hlegal : s.cfg.wf = true) : BlockMoves (atCall s) := ⟨hlegal, rfl, rfl⟩

/-- Any number of micro-steps above the measure finishes. -/
theorem drainLoop_atCall {s : State} {k : Nat} (hlegal : s.cfg.wf = true) (hv : ValidatedPrefix s)
    (hk : drainMeasure s < k) : drainLoop k (atCall s) = finish s :=
  drainLoop_fuel (s := atCall s) (blockMoves_atCall hlegal) (hv.of_eq rfl rfl rfl rfl) hk (drainMeasure_lt_bound s)

/-- A micro-step inside the final call does not change where it ends. -/
theorem finish_of_step {s t : State} (hlegal : s.cfg.wf = true) (hcfg : t.cfg = s.cfg) (hs : ValidatedPrefix s)
    (ht : ValidatedPrefix t) (hstep : step (atCall s) = .next (atCall t)) : finish t = finish s := by
  rw [← drainLoop_atCall (k := drainMeasure s + drainMeasure t + 1) (hcfg ▸ hlegal) ht (by omega),
    ← drainLoop_atCall (k := drainMeasure s + drainMeasure t + 1 + 1) hlegal hs (by omega)]
  exact (drainLoop_of_running hstep rfl).symm

theorem drain_eq_finish {s : State} (hr : s.readScript = []) : drain s = finish s := by
  rw [finish, ← hr]

theorem feed_feed (x y : List Byte) (s : State) : feed y (feed x s) = feed (x ++ y) s := by
  simp [feed]

theorem feed_nil (s : State) : feed [] s = s := by
  simp [feed]

/-- Bytes at the tail of the source, the call, the oracle and the schedule are nothing to an accepted header byte. -/
theorem acceptField_atCall_feed (b : Byte) (x : List Byte) (s : State) :
    acceptField b (atCall (feed x s)) = atCall (feed x (acceptField b s)) := by
  have hpos : (atCall (feed x s)).pos = s.pos := rfl
  cases hp : s.pos with
  | awaitStart => rw [acceptField_awaitStart hp, acceptField_awaitStart (hpos.trans hp)]; rfl
  | awaitAddress => rw [acceptField_awaitAddress hp, acceptField_awaitAddress (hpos.trans hp)]; rfl
  | awaitSubAddress => rw [acceptField_awaitSubAddress hp, acceptField_awaitSubAddress (hpos.trans hp)]; rfl
  | awaitSize => rw [acceptField_awaitSize hp, acceptField_awaitSize (hpos.trans hp)]; rfl
  | awaitBody => simp only [acceptField, hp, hpos]

theorem dispatchOf_atCall_feed (c : Config) (i : Instr) (x : List Byte) (s : State) :
    dispatchOf c i (atCall (feed x s)) = atCall (feed x (dispatchOf c i s)) := by
  cases i <;> rfl

/-- A micro-step that reads with success, or applies the guard, is the same one inside the final call and with more
bytes at the tail of the source. -/
theorem MicroMove.step_atCall_feed {s t : State} (hm : MicroMove s t) (hlegal : s.cfg.wf = true)
    (hv : ValidatedPrefix s) (x : List Byte) :
    (∃ script, t = { s with draining := false, readScript := script }) ∨
    step (atCall (feed x s)) = .next (atCall (feed x t)) := by
  have hs : BlockMoves (atCall (feed x s)) := blockMoves_atCall hlegal
  have hv' : ValidatedPrefix (atCall (feed x s)) := hv.of_eq rfl rfl rfl rfl
  have hread : ReadSucceeds (atCall (feed x s)) := rfl
  cases hm with
  | waits _ after => exact .inl ⟨s.readScript, after⟩
  | failed _ after => exact .inl ⟨s.readScript.tail, after⟩
  | accepted b rest _ bytes header test after =>
    have hq : (atCall (feed x s)).rxq = b :: (rest ++ x) := by simp [atCall, bytes]
    have hafter : feed x (afterRead 1 s) = { feed x s with readScript := s.readScript.tail, rxq := rest ++ x } := by
      simp [afterRead, feed, bytes]
    obtain ⟨-, haccepts, -⟩ := (step_header hs (microStep_field hv' header)).2 b _ hq
    rw [haccepts hread test, after, ← acceptField_atCall_feed, hafter]
    exact .inr rfl
  | rejected b rest _ bytes header test after =>
    have hq : (atCall (feed x s)).rxq = b :: (rest ++ x) := by simp [atCall, bytes]
    obtain ⟨-, -, hrejects⟩ := (step_header hs (microStep_field hv' header)).2 b _ hq
    rw [hrejects hread test, after]
    exact .inr (by simp [atCall, feed, afterRead, reject, bytes])
  | guarded n body size tooBig after =>
    obtain ⟨m, hm⟩ := hv.size body
    obtain rfl : m = n := (declaredSize_some hm).symm.trans size
    rw [oversizeGuardResets _ m hs hv' body hm ((oversize_iff ..).mp tooBig), after]
    exact .inr rfl
  | framed a b n _ body address subAddress size fits bytes after =>
    have hlen : (s.rxq.take n.toNat).length = n.toNat := List.length_take_of_le bytes
    obtain ⟨m, hm⟩ := hv.size body
    obtain rfl : m = n := (declaredSize_some hm).symm.trans size
    have hready : BodyReady (atCall (feed x s)) a b (s.rxq.take m.toNat) (s.rxq.drop m.toNat ++ x) :=
      ⟨hs, hread, body, address, subAddress, by rw [hlen, BitVec.ofNat_toNat, BitVec.setWidth_eq]; exact hm,
        hlen.symm ▸ fits, by rw [← List.append_assoc, List.take_append_drop]; rfl⟩
    rw [step_bodyReady hready, after, frameDone_dispatchOf, ← dispatchOf_atCall_feed]
    exact .inr rfl

/-- The state `t` is what `s` becomes without more bytes: whatever else arrives, both end in the same state. -/
structure Continues (s t : State) : Prop where
  config : t.cfg = s.cfg
  validated : ValidatedPrefix t
  script : s.readScript = [] → t.readScript = []
  future : ∀ x, finish (feed x t) = finish (feed x s)

theorem Continues.trans {s t u : State} (h : Continues s t) (h' : Continues t u) : Continues s u :=
  ⟨h'.config.trans h.config, h'.validated, fun hr => h'.script (h.script hr),
    fun x => (h'.future x).trans (h.future x)⟩

/-- A micro-step goes on to where the state before it goes: one that ends the call has changed no more than the call
and the oracle, and the others are micro-steps of the final call. -/
theorem MicroMove.continues {s t : State} (hm : MicroMove s t) (hlegal : s.cfg.wf = true) (hv : ValidatedPrefix s) :
    Continues s t := by
  have ht := hm.keeps_prefix hv
  refine ⟨hm.cfg_eq, ht, hm.readScript_nil, fun x => ?_⟩
  obtain ⟨_, rfl⟩ | hstep := hm.step_atCall_feed hlegal hv x
  · rfl
  · exact finish_of_step (s := feed x s) hlegal hm.cfg_eq (hv.of_eq rfl rfl rfl rfl) (ht.of_eq rfl rfl rfl rfl) hstep

/-- So does a call. -/
theorem drainLoop_continues {s t : State} {k : Nat} (hs : BlockMoves s) (hv : ValidatedPrefix s)
    (h : drainLoop k s = .next t) : Continues s t := by
  induction k generalizing s with
  | zero => cases h; exact ⟨rfl, hv, id, fun _ => rfl⟩
  | succ k ih =>
    obtain ⟨u, hstep, hm⟩ := step_moves hs hv
    have hu := hm.continues hs.legal hv
    cases hrun : u.draining with
    | false =>
      obtain rfl : u = t := by
        rw [drainLoop_of_stopped hstep hrun] at h
        exact Host.Outcome.next.inj h
      exact hu
    | true =>
      rw [drainLoop_of_running hstep hrun] at h
      exact hu.trans (ih (hs.microMove hm hrun) hu.validated h)

theorem drain_continues {s t : State} (hlegal : s.cfg.wf = true) (hv : ValidatedPrefix s) (h : drain s = .next t) :
    Continues s t := by
  obtain ⟨hcfg, hvalid, hscript, hfuture⟩ := drainLoop_continues (s := { s with draining := true, turns := [] })
    ⟨hlegal, rfl, rfl⟩ (hv.of_eq rfl rfl rfl rfl) h
  exact ⟨hcfg, hvalid, hscript, hfuture⟩

/-- Settles O52: the call after a piece goes on to where the pieces that follow lead. -/
theorem piecewiseDeliveryIsTheSame : Obligations.PiecewiseDeliveryIsTheSame := by
  intro s pieces hlegal hv hr
  induction pieces generalizing s with
  | nil => rw [deliver, List.flatten_nil, feed_nil]
  | cons piece pieces ih =>
    have hv' : ValidatedPrefix (feed piece s) := hv.of_eq rfl rfl rfl rfl
    obtain ⟨t, hdrain, -⟩ := drain_returns (s := feed piece s) hlegal hv'
    have ht := drain_continues (s := feed piece s) hlegal hv' hdrain
    have hrt : t.readScript = [] := ht.script hr
    calc deliver (piece :: pieces) s
        = deliver pieces t := by simp only [deliver, hdrain]
      _ = drain (feed pieces.flatten t) := ih t (ht.config.symm ▸ hlegal) ht.validated hrt
      _ = finish (feed pieces.flatten t) := drain_eq_finish (s := feed pieces.flatten t) hrt
      _ = finish (feed pieces.flatten (feed piece s)) := ht.future _
      _ = finish (feed (piece :: pieces).flatten s) := by rw [feed_feed, List.flatten_cons]
      _ = drain (feed (piece :: pieces).flatten s) := (drain_eq_finish (s := feed _ s) hr).symm

/-- What differs in the call and the schedule alone ends in the same state. -/
theorem continues_withControl {s : State} (hv : ValidatedPrefix s) (draining : Bool) (ts : List Turn) :
    Continues s { s with draining := draining, turns := ts } :=
  ⟨rfl, hv.of_eq rfl rfl rfl rfl, id, fun _ => rfl⟩

/-- Where the source is unbounded, a plain turn goes on to where the state before it goes with the turn's byte. -/
theorem plainTurn_continues {s t : State} {turn : Turn} {rest : List Turn} (hlegal : s.cfg.wf = true)
    (hcap : s.cfg.rxCap = none) (hv : ValidatedPrefix s) (hturn : plainTurn turn = true)
    (hstep : step { s with turns := turn :: rest } = .next t) :
    t.turns = rest ∧ Continues (feed (sentBytes [turn]) s) t := by
  rw [step_turn (s := { s with turns := turn :: rest }) hlegal rfl] at hstep
  have hrest : Continues s { s with turns := rest } := continues_withControl hv s.draining rest
  cases turn with
  | block =>
    rw [sentBytes, sentBytes, feed_nil]
    simp only [takeTurn, blockTurn] at hstep
    split at hstep
    · have hm := microStep_next hstep
      exact ⟨hm.turns_eq, hrest.trans (hm.continues hlegal hrest.validated)⟩
    · cases hstep; exact ⟨rfl, hrest⟩
  | sender b =>
    have harrival : arrive b { s with turns := rest } = { feed [b] s with turns := rest } :=
      arrive_room b fun k hk => absurd (hcap.symm.trans hk) nofun
    obtain rfl : { feed [b] s with turns := rest } = t := by rw [← harrival]; exact Host.Outcome.next.inj hstep
    exact ⟨rfl, continues_withControl (s := feed [b] s) (hv.of_eq rfl rfl rfl rfl) s.draining rest⟩
  | hostDrain =>
    rw [sentBytes, sentBytes, feed_nil]
    simp only [takeTurn, callDrain] at hstep
    split at hstep
    · exact nomatch hstep
    · cases hstep; exact ⟨rfl, continues_withControl hv true rest⟩
  | hostReset => exact nomatch hturn
  | hostConfigure c => exact nomatch hturn

theorem sentBytes_cons (turn : Turn) (ts : List Turn) : sentBytes (turn :: ts) = sentBytes [turn] ++ sentBytes ts := by
  cases turn <;> rfl

/-- Settles O53: turn by turn, the bytes still to come included. -/
theorem outputIsAFunctionOfTheStream : Obligations.OutputIsAFunctionOfTheStream := by
  intro s t ts hlegal hcap hv hplain hrun
  induction ts generalizing s with
  | nil =>
    cases hrun
    rw [sentBytes, feed_nil]
    rfl
  | cons turn ts ih =>
    obtain ⟨hturn, hrest⟩ := List.forall_mem_cons.mp hplain
    obtain ⟨u, hstep, hrun⟩ := run_succ_inv hrun
    obtain ⟨hturns, hu⟩ := plainTurn_continues hlegal hcap hv hturn hstep
    have hrun' : core.run ts.length { u with turns := ts } = .next t := by rw [← hrun, ← hturns]
    have hcfg : u.cfg = s.cfg := hu.config
    calc finish t
        = finish (feed (sentBytes ts) u) := ih u (hcfg ▸ hlegal) (hcfg ▸ hcap) hu.validated hrest hrun'
      _ = finish (feed (sentBytes ts) (feed (sentBytes [turn]) s)) := hu.future _
      _ = finish (feed (sentBytes (turn :: ts)) s) := by rw [feed_feed, sentBytes_cons turn ts]

/-! ### Hazards (70_reset_and_hazards.md R129, R133) -/

/-- At AwaitBody with a size that fits and a source that is too short, a micro-step only ends the call. -/
theorem MicroMove.of_short_body {s t : State} {n : Byte} (hm : MicroMove s t) (hp : s.pos = .awaitBody)
    (hn : s.dbs = some n) (hfits : n.toNat ≤ s.cfg.maxBody) (hshort : s.rxq.length < n.toNat) :
    ∃ script, t = { s with draining := false, readScript := script } := by
  have hsize : declaredSize s = n := declaredSize_some hn
  cases hm with
  | waits _ after => exact ⟨s.readScript, after⟩
  | failed _ after => exact ⟨s.readScript.tail, after⟩
  | accepted _ _ _ _ header => exact absurd hp header
  | rejected _ _ _ _ header => exact absurd hp header
  | guarded m _ size tooBig =>
    obtain rfl : n = m := hsize.symm.trans size
    exact absurd ((oversize_iff ..).mp tooBig) (Nat.not_lt.mpr hfits)
  | framed _ _ m _ _ _ _ size _ bytes =>
    obtain rfl : n = m := hsize.symm.trans size
    exact absurd bytes (Nat.not_le.mpr hshort)

/-- The block waits for a body of `n` bytes that its source of capacity `k` cannot hold, as it did in `s`. -/
structure Starved (s : State) (k : Nat) (n : Byte) (u : State) : Prop where
  config : u.cfg = s.cfg
  position : u.pos = .awaitBody
  size : u.dbs = some n
  events : u.evt = s.evt
  sink : u.txq = s.txq
  buffer : u.sb = s.sb
  source : u.rxq.length ≤ k
  schedule : ∀ turn ∈ u.turns, plainTurn turn = true

theorem Starved.step {s u v : State} {k : Nat} {n : Byte} (hcap : s.cfg.rxCap = some k) (hk : k < n.toNat)
    (hfits : n.toNat ≤ s.cfg.maxBody) (h : Starved s k n u) (hstep : step u = .next v) : Starved s k n v := by
  obtain ⟨config, position, size, events, sink, buffer, source, schedule⟩ := h
  have hschedule : ∀ turn ∈ u.turns.tail, plainTurn turn = true := fun turn hturn =>
    schedule turn (List.mem_of_mem_tail hturn)
  obtain ⟨-, hm⟩ | rfl | ⟨b, rfl⟩ | rfl | ⟨hreset, -⟩ := (step_next hstep).2.cases_tail
  · obtain ⟨_, rfl⟩ := hm.of_short_body position size (config.symm ▸ hfits) (Nat.lt_of_le_of_lt source hk)
    exact ⟨config, position, size, events, sink, buffer, source, hschedule⟩
  · exact ⟨config, position, size, events, sink, buffer, source, hschedule⟩
  · have hlen := arrive_length_le (s := { u with turns := u.turns.tail }) (b := b) (config.symm ▸ hcap) source
    exact ⟨(arrive_cfg ..).trans config, (arrive_pos ..).trans position, (arrive_dbs ..).trans size,
      (arrive_evt ..).trans events, (arrive_txq ..).trans sink, (arrive_sb ..).trans buffer, hlen,
      by rw [arrive_turns]; exact hschedule⟩
  · exact ⟨config, position, size, events, sink, buffer, source, hschedule⟩
  · exact nomatch schedule _ (List.mem_of_mem_head? hreset)

/-- Settles O55: the block stays starved along the run. -/
theorem smallSourceNeverCompletes : Obligations.SmallSourceNeverCompletes := by
  intro s t k m n hcap hlen hk hp hn hfits hplain hrun
  have hstart : Starved s k n s := ⟨rfl, hp, hn, rfl, rfl, rfl, hlen, hplain⟩
  have hend := run_keeps (P := Starved s k n) (fun u v hu hstep => hu.step hcap hk hfits hstep) hstart hrun
  exact ⟨hend.position, hend.size, hend.events, hend.sink, hend.buffer⟩

/-- At AwaitStart a byte that is no start marker is taken, and nothing else changes. -/
theorem microStep_noise {s : State} {b : Byte} {rest : List Byte} (hp : s.pos = .awaitStart) (hr : s.readScript = [])
    (hq : s.rxq = b :: rest) (hb : b ≠ startMarker) : microStep s = .next { s with rxq := rest } := by
  have hread : ReadSucceeds s := by simp [ReadSucceeds, hr]
  have htest : (b == startMarker) = false := beq_eq_false_iff_ne.mpr hb
  rw [microStep_awaitStart hp, fieldStep_rejects (accept := (· == startMarker)) hq hread htest]
  simp only [reject, hr, ← hp, List.tail_nil]

/-- A byte of noise that arrives just before a micro-step is gone after it, and the call goes on. -/
theorem run_noise {s : State} {b : Byte} {rest : List Turn} {k : Nat} (hlegal : s.cfg.wf = true)
    (hp : s.pos = .awaitStart) (hq : s.rxq = []) (hr : s.readScript = []) (hrun : s.draining = true)
    (hb : b ≠ startMarker) (hcap : ∀ m, s.cfg.rxCap = some m → 1 ≤ m) :
    core.run (k + 1 + 1) { s with turns := .sender b :: .block :: rest } = core.run k { s with turns := rest } := by
  have hroom : ∀ m, s.cfg.rxCap = some m → s.rxq.length < m := fun m hm => by rw [hq]; exact hcap m hm
  have harrival : step { s with turns := .sender b :: .block :: rest } =
      .next { s with turns := .block :: rest, rxq := [b] } := by
    rw [(surroundingsMove { s with turns := .sender b :: .block :: rest } (.block :: rest) b hlegal).1 rfl hroom, hq]
    rfl
  have hscan : step { s with turns := .block :: rest, rxq := [b] } = .next { s with turns := rest } := by
    rw [step_turn (s := { s with turns := .block :: rest, rxq := [b] }) hlegal rfl, takeTurn, blockTurn, if_pos hrun,
      microStep_noise (s := { s with turns := rest, rxq := [b] }) hp hr rfl hb, ← hq]
  rw [run_succ harrival, run_succ hscan]

/-- Settles O56: each arrival and micro-step of the schedule leaves the state as it was (`run_noise`). -/
theorem drainNeedNotReturn : Obligations.DrainNeedNotReturn := by
  intro s b k hlegal hp hq hr hrun hb hcap
  induction k with
  | zero => rfl
  | succ k ih => exact (run_noise hlegal hp hq hr hrun hb hcap).trans ih

end Sys2Proof.Machine
end
